-- ==== Sys2Proof/Word.lean ====
section
/-! DEFINITION. The 32-bit word of the host port: command words, DIN and key words (20_memory.md R58). -/

namespace Sys2Proof

/-- A command word, a DIN or a key word: "Every command word is 32 bits. Every DIN is 32 bits." (R58) -/
abbrev Word := BitVec 32

end Sys2Proof
end

