-- ==== Sys2Proof/Syntax.lean ====
section
/-! DEFINITION. The seven commands of 30_encoding.md R73, and the two words the host presents them in. -/

namespace Sys2Proof

/-- One command as the host presents it on the port: the command word and the data word (R70). -/
structure Command where
  cmd : Word
  din : Word
deriving DecidableEq, Repr

/-- The seven commands, each with the operands R77 and R80 give it. DIN is an operand of the three that use it. -/
inductive Instr where
  | nop
  | keyWrite (din : Word)
  | ctrWrite (lane k : Nat) (din : Word)
  | ivWrite (lane c : Nat) (din : Word)
  /-- `mode` is the MODE field 0..3 of R76, 2 and 3 included; `lanes` is L_req. -/
  | create (mode : Nat) (dflt str1 : Bool) (lanes : Nat)
  | nextWord
  | destroy
deriving DecidableEq, Repr

end Sys2Proof
end

