-- ==== Sys2Proof/WellFormed.lean ====
section
/-! DEFINITION. Which commands have an encoding: the operand ranges of the fields of 30_encoding.md R72 and R76. -/

namespace Sys2Proof

/-- Every operand fits its field: A and B are 8 bits (R72), MODE is 2 bits (R76). -/
def Instr.wf : Instr → Bool
  | .nop => true
  | .keyWrite _ => true
  | .ctrWrite lane k _ => decide (lane < 256) && decide (k < 256)
  | .ivWrite lane c _ => decide (lane < 256) && decide (c < 256)
  | .create mode _ _ lanes => decide (mode < 4) && decide (lanes < 256)
  | .nextWord => true
  | .destroy => true

end Sys2Proof
end

