-- ==== Sys2Proof/Decode.lean ====
section
/-! DEFINITION. Decoding a command word (30_encoding.md R72 to R79), total on all 2^32 words, and the encoder. -/

namespace Sys2Proof

/-- Bits [lo+len-1 : lo] of a word as an unsigned number (R11). -/
def field (v : Word) (lo len : Nat) : Nat := (v.extractLsb' lo len).toNat

/-- Bit `i` of a word. -/
def flagBit (v : Word) (i : Nat) : Bool := v.getLsbD i

/-- One row of the opcode table (R74): `cmd &&& mask = pattern` selects it. -/
structure OpcodeRow where
  mnemonic : String
  pattern : Word
  mask : Word
deriving DecidableEq, Repr

/-- Match and mask of each command (R74). -/
def rowOf (op : Nat) : Option OpcodeRow :=
  match op with
  | 0 => some ⟨"NOP", 0x00000000, 0xFFFFFFFF⟩
  | 1 => some ⟨"KEY_WRITE", 0x00000001, 0xFFFFFFFF⟩
  | 2 => some ⟨"CTR_WRITE", 0x00000002, 0xFF0000FF⟩
  | 3 => some ⟨"IV_WRITE", 0x00000003, 0xFF0000FF⟩
  | 4 => some ⟨"CREATE", 0x00000004, 0xFFFF000F⟩
  | 5 => some ⟨"NEXT_WORD", 0x00000005, 0xFFFFFFFF⟩
  | 6 => some ⟨"DESTROY", 0x00000006, 0xFFFFFFFF⟩
  | _ => none

/-- The two kinds of illegal command word (R78). -/
inductive IllegalWord where
  /-- OP in 0x7..0xF -/
  | reservedOpcode
  /-- OP names a command, but a must-be-zero bit is not 0 -/
  | mustBeZero
deriving DecidableEq, Repr

/-- What `Decode(cmd)` returns (R75): a command, or ILLEGAL with its kind. -/
inductive Decoded where
  | instr (i : Instr)
  | illegal (why : IllegalWord)
deriving DecidableEq, Repr

/-- "the command named by op, with fields MOD = cmd[7:4], A = cmd[15:8], B = cmd[23:16]" (R75), the sub-fields of
MOD as R76 gives them, DIN the operand of the commands that use it (R77). -/
def operandsOf (op : Nat) (c : Command) : Decoded :=
  match op with
  | 0 => .instr .nop
  | 1 => .instr (.keyWrite c.din)
  | 2 => .instr (.ctrWrite (field c.cmd 8 8) (field c.cmd 16 8) c.din)
  | 3 => .instr (.ivWrite (field c.cmd 8 8) (field c.cmd 16 8) c.din)
  | 4 => .instr (.create (field c.cmd 4 2) (flagBit c.cmd 6) (flagBit c.cmd 7) (field c.cmd 8 8))
  | 5 => .instr .nextWord
  | 6 => .instr .destroy
  | _ => .illegal .reservedOpcode

/-- `Decode(cmd)` of R75. -/
def decode (c : Command) : Decoded :=
  match rowOf (field c.cmd 0 4) with
  | none => .illegal .reservedOpcode
  | some row =>
    if c.cmd &&& row.mask = row.pattern then operandsOf (field c.cmd 0 4) c else .illegal .mustBeZero

/-- A command word from its fields (R72); RSV is 0. -/
def commandWord (op mod a b : Nat) : Word :=
  BitVec.ofNat 32 (op % 16 + 16 * (mod % 16) + 256 * (a % 256) + 65536 * (b % 256))

/-- The words of a command (R73, R76); DIN is 0 where the command ignores it (R77). -/
def encode : Instr → Command
  | .nop => ⟨commandWord 0 0 0 0, 0⟩
  | .keyWrite din => ⟨commandWord 1 0 0 0, din⟩
  | .ctrWrite lane k din => ⟨commandWord 2 0 lane k, din⟩
  | .ivWrite lane c din => ⟨commandWord 3 0 lane c, din⟩
  | .create mode dflt str1 lanes => ⟨commandWord 4 (mode % 4 + 4 * dflt.toNat + 8 * str1.toNat) lanes 0, 0⟩
  | .nextWord => ⟨commandWord 5 0 0 0, 0⟩
  | .destroy => ⟨commandWord 6 0 0 0, 0⟩

/-- Whether DIN is an operand of the command (R73, column "uses DIN"). -/
def Instr.usesDin : Instr → Bool
  | .nop => false
  | .keyWrite _ => true
  | .ctrWrite _ _ _ => true
  | .ivWrite _ _ _ => true
  | .create _ _ _ _ => false
  | .nextWord => false
  | .destroy => false

/-- The mnemonic of a command in the table (R73). -/
def Instr.mnemonic : Instr → String
  | .nop => "NOP"
  | .keyWrite _ => "KEY_WRITE"
  | .ctrWrite _ _ _ => "CTR_WRITE"
  | .ivWrite _ _ _ => "IV_WRITE"
  | .create _ _ _ _ => "CREATE"
  | .nextWord => "NEXT_WORD"
  | .destroy => "DESTROY"

/-- The mnemonic of a decoded word, none for ILLEGAL. -/
def Decoded.mnemonic? : Decoded → Option String
  | .instr i => some i.mnemonic
  | .illegal _ => none

/-- The port's two words from the low `nbits` bits of a number: the command word in bits 31..0, DIN in bits 63..32. -/
def commandOfBits (nbits w : Nat) : Command :=
  ⟨BitVec.ofNat 32 (w % 2 ^ nbits), BitVec.ofNat 32 (w % 2 ^ nbits / 2 ^ 32)⟩

/-- The command the decoder reads from a word numbered as spec/opcode_table.json numbers it. -/
def decodeTableWord (nbits w : Nat) : Option Instr :=
  match decode (commandOfBits nbits w) with
  | .instr i => some i
  | .illegal _ => none

end Sys2Proof
end

