-- ==== Sys2Proof/Config.lean ====
section
/-! DEFINITION. What one KSC is built with: the parameters of 00_scope.md R8 as plain data, the limits R8 and
decision D32 put on them, and the constants the spec leaves open, without a body. -/

namespace Sys2Proof

/-- BUF_LAYOUT of R8: where a lane's block goes in the output buffer (R121). -/
inductive BufLayout where
  | laneMajor
  | wordMajor
deriving DecidableEq, Repr

/-- Which block transform E (R12) the KSC was built with.
`supplied` is the hardware's: an uninterpreted function, of which only the name is data.
`identity` and `xorKey` are E_id and E_xk of 95_test_vectors.md section 2, "not transforms of the hardware"; they
are here so that the spec's vectors run through `step` (log entry 2, DESIGN CHOICE). What `xorKey` is where
32*KEYLEN differs from BW is the model's choice too (log entry 19, DESIGN CHOICE). -/
inductive BlockTransform where
  | supplied (name : Nat)
  | identity
  | xorKey
deriving DecidableEq, Repr

/-- The parameters of R8, fixed when the hardware is built (R234). Carried in `State` and never written by a step,
so that a statement about every state is one about every KSC (log entry 1, DESIGN CHOICE). -/
structure Params where
  /-- LMAX, the largest lane count -/
  lmax : Nat
  /-- SUPPORTED_L, as the list of the lane counts it holds of -/
  supportedL : List Nat
  /-- W, counter words per lane -/
  w : Nat
  /-- CWB, bits per counter word; R9: "a parameter whose value for this hardware is 32" -/
  cwb : Nat
  /-- BW, block width in bits -/
  bw : Nat
  /-- OWB, bits per output word -/
  owb : Nat
  /-- KEYLEN, key length in 32-bit words -/
  keylen : Nat
  bufLayout : BufLayout
  /-- E, by name -/
  transform : BlockTransform
deriving DecidableEq, Repr

/-- M = CWB * W, the width of a lane counter (R10). -/
abbrev Params.m (p : Params) : Nat := p.cwb * p.w

/-- WPB = BW / OWB, output words per block (R8). -/
abbrev Params.wpb (p : Params) : Nat := p.bw / p.owb

/-- NMAX = LMAX * WPB, the physical buffer length (R8). -/
abbrev Params.nmax (p : Params) : Nat := p.lmax * p.wpb

/-- The number of 32-bit chunks in a block, BW / 32 (R153). -/
abbrev Params.chunks (p : Params) : Nat := p.bw / 32

/-- The ranges of R8 and decision D32. R9 leaves CWB a parameter; the range 8..32 is the one in which the rules'
widths make sense, the 8-bit stride zero-extended to CWB+1 bits (R103) and DIN truncated to CWB bits (R77)
(log entry 3, DEDUCED). -/
abbrev Params.Wf (p : Params) : Prop :=
  (1 ≤ p.lmax ∧ p.lmax ≤ 255) ∧ (∀ l ∈ p.supportedL, 1 ≤ l ∧ l ≤ p.lmax) ∧ (1 ≤ p.w ∧ p.w ≤ 256) ∧
  (8 ≤ p.cwb ∧ p.cwb ≤ 32) ∧ (p.owb = 32 ∨ p.owb = 64) ∧ p.bw % 32 = 0 ∧ p.bw % p.owb = 0 ∧ p.m ≤ p.bw ∧
  p.bw / 32 ≤ 256 ∧ p.keylen ≤ 255

/-- The block transform E of R12, one function for each name, KEYLEN and BW. No body: R12 gives "nothing else about E". -/
opaque Config.blockTransform (name keylen bw : Nat) : BitVec (32 * keylen) → BitVec bw → BitVec bw

/-- KSC_BASE of R51, left to the platform: "No rule of this spec reads it." -/
opaque Config.kscBase : Nat

/-- The name of the command set (R3). -/
def Config.isaString : String := "KSC-v7"

/-- The KSC that `State.reset` is: the geometry G1 of 95_test_vectors.md section 2 with CWB = 32 and the default
SUPPORTED_L and BUF_LAYOUT, its E an uninterpreted one (log entry 1, DESIGN CHOICE). -/
def Config.resetParams : Params :=
  { lmax := 4, supportedL := [1, 2, 3, 4], w := 1, cwb := 32, bw := 64, owb := 32, keylen := 2,
    bufLayout := .laneMajor, transform := .supplied 0 }

end Sys2Proof
end

