-- ==== Sys2Proof/Machine/State.lean ====
section
/-! DEFINITION. The state of one KSC (10_state.md), its host port's inputs and response (30_encoding.md R70), the
reasons a step can stop, and the state after reset (70_reset_and_hazards.md R230). -/

namespace Sys2Proof.Machine

/-- The `mode` register (R26): 0 is CTR, 1 is CBC, "so `mode` never holds an illegal value". -/
inductive Mode where
  | ctr
  | cbc
deriving DecidableEq, Repr

/-- The status codes 0..7 of R200; "8..15 reserved, never returned". -/
inductive Status where
  | ok
  | errIllegal
  | errMode
  | errLanes
  | errKeylen
  | errNotcfg
  | errLocked
  | errRange
deriving DecidableEq, Repr

/-- The 4-bit code of a status (R200). -/
def Status.code : Status → BitVec 4
  | .ok => 0
  | .errIllegal => 1
  | .errMode => 2
  | .errLanes => 3
  | .errKeylen => 4
  | .errNotcfg => 5
  | .errLocked => 6
  | .errRange => 7

/-- The state elements of 10_state.md section 1, for a KSC built with `p`. -/
structure Regs (p : Params) where
  /-- R25 -/
  cfgValid : Bool
  /-- R26 -/
  mode : Mode
  /-- L_reg, R27 -/
  lanes : BitVec 8
  /-- R28 -/
  stride : BitVec 8
  /-- ctr[0..LMAX-1], R20 -/
  ctr : Vector (BitVec p.m) p.lmax
  /-- prev[0..LMAX-1], R30 -/
  prev : Vector (BitVec p.bw) p.lmax
  /-- buf[0..NMAX-1], R32 -/
  buf : Vector (BitVec p.owb) p.nmax
  /-- the read cursor, in [0, NMAX] (R31) -/
  pos : Nat
  /-- key[0..KEYLEN-1], R33 -/
  key : Vector Word p.keylen
  /-- KEY_WRITE commands so far, saturating at KEYLEN+1 (R34) -/
  keyCount : Nat
deriving DecidableEq, Repr

/-- What a command returns: the 4-bit status and the OWB-bit DOUT (R39, R70). -/
structure Response (owb : Nat) where
  status : Status
  dout : BitVec owb
deriving DecidableEq, Repr

/-- What happens at the port next, in the order the port accepts it (R61): nothing presented, a command accepted,
or rst_n low at a clock edge, with the command that was outstanding then, if any (R230, R232). -/
inductive PortEvent where
  | idle
  | command (c : Command)
  | reset (outstanding : Option Command)
deriving DecidableEq, Repr

/-- One KSC and what its host port holds. -/
structure State where
  /-- the parameters it was built with (R8, R234): no step writes them -/
  params : Params
  /-- the registers of 10_state.md -/
  regs : Regs params
  /-- status and dout while rsp_valid = 1, none while rsp_valid = 0 (R70) -/
  response : Option (Response params.owb)
  /-- the host's inputs not yet accepted, the next one first (R61, R62, R242) -/
  inputs : List PortEvent
deriving DecidableEq, Repr

/-- Why a step can stop the machine. The KSC has no traps and no failing hot path (R202, R207), so the one reason is
a state that no rule reaches. -/
inductive Fault where
  /-- Raised by NEXT_WORD where `BufRead(pos)` (R13) names a word at or above NMAX, which does not exist. R29 and R127
  exclude it while the control registers keep their invariant. Safe: the model stops where the spec says nothing. -/
  | cursorOutsideBuffer
deriving DecidableEq, Repr

/-- Why a step can have no meaning. -/
inductive Refusal where
  /-- Raised by an arm of `exec` for a command that has no meaning yet; no arm raises it. Safe: the model stops. -/
  | notModelled (mnemonic : String)
deriving DecidableEq, Repr

/-- Every register at its reset value (R230). -/
def Regs.reset (p : Params) : Regs p :=
  { cfgValid := false, mode := .ctr, lanes := 0, stride := 0, ctr := Vector.replicate _ 0,
    prev := Vector.replicate _ 0, buf := Vector.replicate _ 0, pos := 0, key := Vector.replicate _ 0, keyCount := 0 }

/-- The state right after reset of a KSC built with `p`: no response, nothing presented. -/
abbrev State.resetOf (p : Params) : State :=
  { params := p, regs := Regs.reset p, response := none, inputs := [] }

/-- The state right after reset, of the KSC that Config names. -/
def State.reset : State := State.resetOf Config.resetParams

end Sys2Proof.Machine
end

