-- ==== Sys2Proof/Machine/Operands.lean ====
section
/-! DEFINITION. Bit slices and the places of counter words, IV chunks, key words and output words in the values they
are parts of (00_scope.md R11 and R13, 20_memory.md R52 to R55). -/

namespace Sys2Proof.Machine

/-- `v[lo+len-1 : lo]` (R11). -/
def getBits {n : Nat} (v : BitVec n) (lo len : Nat) : BitVec len := v.extractLsb' lo len

/-- `v` with `v[lo+len-1 : lo] <- x`, the bits of `x` that fall outside `v` dropped. -/
def putBits {n len : Nat} (v : BitVec n) (lo : Nat) (x : BitVec len) : BitVec n :=
  (v &&& ~~~((BitVec.allOnes len).setWidth n <<< lo)) ||| (x.setWidth n <<< lo)

/-- `ctr[i].w[k]` of a counter of CWB-bit words: word 0 is the low word (R13, R52). -/
def ctrWord {n : Nat} (cwb : Nat) (c : BitVec n) (k : Nat) : BitVec cwb := getBits c (cwb * k) cwb

/-- A counter with word `k` replaced. -/
def setCtrWord {n cwb : Nat} (c : BitVec n) (k : Nat) (x : BitVec cwb) : BitVec n := putBits c (cwb * k) x

/-- A block with its 32-bit chunk `c` replaced: bits [32c+31 : 32c] (R55). -/
def setChunk {n : Nat} (b : BitVec n) (c : Nat) (x : Word) : BitVec n := putBits b (32 * c) x

/-- `ctr_block(i) := zext_BW(ctr[i])` (R53). -/
def ctrBlock (p : Params) (c : BitVec p.m) : BitVec p.bw := c.setWidth p.bw

/-- `blockword(v, j) := v[OWB*j+OWB-1 : OWB*j]` (R54). -/
def blockword (p : Params) (v : BitVec p.bw) (j : Nat) : BitVec p.owb := getBits v (p.owb * j) p.owb

/-- The number whose 32-bit digits are the given words, the first one the least significant. -/
def wordsToNat : List Word → Nat
  | [] => 0
  | x :: xs => x.toNat + 2 ^ 32 * wordsToNat xs

/-- `KeyVec = key[KEYLEN-1] ++ ... ++ key[0]` (R13, R55). -/
def keyVec {p : Params} (r : Regs p) : BitVec (32 * p.keylen) := BitVec.ofNat _ (wordsToNat r.key.toList)

/-- `E(key, block)` (R12). The hardware's E is the uninterpreted `Config.blockTransform`; the other two arms are the
test transforms E_id and E_xk of 95_test_vectors.md section 2. That section gives E_xk as `b ^ KeyVec`, which R11 reads only
where 32*KEYLEN = BW (as in G1); at other widths the key is zero-extended or truncated to BW bits, the model's own choice
(log entry 19, DESIGN CHOICE). -/
def transformBlock (p : Params) (key : BitVec (32 * p.keylen)) (block : BitVec p.bw) : BitVec p.bw :=
  match p.transform with
  | .supplied name => Config.blockTransform name p.keylen p.bw key block
  | .identity => block
  | .xorKey => block ^^^ key.setWidth p.bw

/-- N = lanes * WPB, the buffer length of the current configuration (R8). -/
def bufLen {p : Params} (r : Regs p) : Nat := r.lanes.toNat * p.wpb

/-- The mode a MODE field names, none for the values 2 and 3, the "unknown mode" (R76). -/
def modeOf (field : Nat) : Option Mode :=
  match field with
  | 0 => some .ctr
  | 1 => some .cbc
  | _ => none

end Sys2Proof.Machine
end

