-- ==== Sys2Proof/Machine/Ops.lean ====
section
/-! DEFINITION. The operations every command shares: reading and writing the buffer, ending a command with a status
(00_scope.md R14 and R15), and what the host port does between commands (30_encoding.md R70, 70_reset_and_hazards.md
R230 and R232). The KSC has no trap entry and no trap return (60_exceptions.md R207, R208): `State.raise` is all there
is to an error. -/

namespace Sys2Proof.Machine

/-- `BufRead(j)` (R13); none where there is no word `j`. -/
def bufRead {p : Params} (r : Regs p) (j : Nat) : Option (BitVec p.owb) := r.buf[j]?

/-- `BufWrite(j, v)` (R13); there is nothing to write at or above NMAX. -/
def bufWrite {p : Params} (r : Regs p) (j : Nat) (v : BitVec p.owb) : Regs p :=
  { r with buf := r.buf.setIfInBounds j v }

/-- `raise Status(code)`: "returns that status code and DOUT = 0, and makes no state change" (R14). -/
abbrev State.raise (s : State) (code : Status) : State := { s with response := some ⟨code, 0⟩ }

/-- `complete(dout)`: "ends the current command with status OK (0) and the given DOUT" (R15), the command having
left the registers as `r`. -/
abbrev State.complete (s : State) (r : Regs s.params) (dout : BitVec s.params.owb) : State :=
  { s with regs := r, response := some ⟨.ok, dout⟩ }

/-- A cycle with no command accepted: "Between commands it holds its state" (R215), and the response, "valid for one
cycle" (R70), is gone. -/
abbrev State.hold (s : State) : State := { s with response := none }

/-- rst_n low at a clock edge: ResetState (R230), and "no response is delivered" to a command that was outstanding
(R232). -/
abbrev State.hardReset (s : State) : State := { s with regs := Regs.reset s.params, response := none }

/-- What the port takes next: the command it accepts, if any, and the state it is run in, or else the state that the
event itself leaves. An empty list of inputs is a host that presents nothing. -/
def accept (s : State) : Option Command × State :=
  match s.inputs with
  | [] => (none, s.hold)
  | .idle :: rest => (none, { s with inputs := rest }.hold)
  | .command c :: rest => (some c, { s with inputs := rest })
  | .reset _ :: rest => (none, { s with inputs := rest }.hardReset)

/-- The state with a command presented at the port, ahead of every other input. -/
abbrev present (s : State) (c : Command) : State := { s with inputs := .command c :: s.inputs }

end Sys2Proof.Machine
end

