-- ==== Sys2Proof/Machine/Flags.lean ====
section
/-! DEFINITION. The one status flag of the KSC, cfg_valid (10_state.md R25), and the two checks the commands make of it
(60_exceptions.md R200, codes 5 and 6). The KSC has no condition codes. -/

namespace Sys2Proof.Machine

/-- `if cfg_valid = 1 then raise Status(ERR_LOCKED)`, else the rest of the command (R100, R153, R171, R173). -/
def whenUnlocked (s : State) (rest : Host.Outcome State Fault Refusal) : Host.Outcome State Fault Refusal :=
  if s.regs.cfgValid = true then .next (s.raise .errLocked) else rest

/-- `if cfg_valid = 0 then raise Status(ERR_NOTCFG)`, else the rest of the command (R124). -/
def whenConfigured (s : State) (rest : Host.Outcome State Fault Refusal) : Host.Outcome State Fault Refusal :=
  if s.regs.cfgValid = false then .next (s.raise .errNotcfg) else rest

end Sys2Proof.Machine
end

