-- ==== Sys2Proof/Machine/CounterBank.lean ====
section
/-! DEFINITION. The counter bank (40_counter_bank.md): CTR_WRITE, the default layout and ADVANCE. -/

namespace Sys2Proof.Machine

/-- The inner loop of ADVANCE (R103) over the `n` words from word `k` on: `carry` is c, CWB+1 bits wide. -/
def rippleFrom {m : Nat} (cwb : Nat) : (n k : Nat) → BitVec m → BitVec (cwb + 1) → BitVec m
  | 0, _, c, _ => c
  | n + 1, k, c, carry =>
    let s := (ctrWord cwb c k).setWidth (cwb + 1) + carry
    rippleFrom cwb n (k + 1) (setCtrWord c k (s.setWidth cwb)) ((getBits s cwb 1).setWidth (cwb + 1))

/-- One lane's part of ADVANCE (R103): the stride added to the low word, the carry into the next-higher word of the
same lane, the carry out of word W-1 discarded. -/
def advanceCounter (p : Params) (stride : BitVec 8) (c : BitVec p.m) : BitVec p.m :=
  rippleFrom p.cwb p.w 0 c (stride.setWidth (p.cwb + 1))

/-- ADVANCE (R103): lanes 0..L-1 only. -/
def advance {p : Params} (r : Regs p) : Regs p :=
  { r with ctr := Vector.ofFn fun i =>
      if i.val < r.lanes.toNat then advanceCounter p r.stride r.ctr[i] else r.ctr[i] }

/-- DEFAULT_LAYOUT(L) (R102): `ctr[i] <- zext_M(i)` for lanes 0..L-1; lanes L..LMAX-1 are not written. -/
def defaultLayout {p : Params} (l : Nat) (r : Regs p) : Regs p :=
  { r with ctr := Vector.ofFn fun i => if i.val < l then BitVec.ofNat p.m i.val else r.ctr[i] }

/-- `ctr[lane].w[k] <- x`. -/
def writeCtrWord {p : Params} (r : Regs p) (lane : Fin p.lmax) (k : Nat) (x : BitVec p.cwb) : Regs p :=
  { r with ctr := r.ctr.set lane (setCtrWord r.ctr[lane] k x) }

/-- CTR_WRITE (R100). -/
def execCtrWrite (lane k : Nat) (din : Word) (s : State) : Host.Outcome State Fault Refusal :=
  whenUnlocked s (
    if h : lane < s.params.lmax ∧ k < s.params.w then
      .next (s.complete (writeCtrWord s.regs ⟨lane, h.1⟩ k (din.setWidth s.params.cwb)) 0)
    else .next (s.raise .errRange))

end Sys2Proof.Machine
end

