-- ==== Sys2Proof/Machine/Control.lean ====
section
/-! DEFINITION. Construction and control (43_control.md): NOP, KEY_WRITE, CREATE, DESTROY. -/

namespace Sys2Proof.Machine

/-- NOP (R172). -/
def execNop (s : State) : Host.Outcome State Fault Refusal := .next (s.complete s.regs 0)

/-- The register writes of KEY_WRITE (R171): the next key word, or the mark that there were too many. -/
def appendKey {p : Params} (r : Regs p) (din : Word) : Regs p :=
  if h : r.keyCount < p.keylen then
    { r with key := r.key.set r.keyCount din h, keyCount := r.keyCount + 1 }
  else { r with keyCount := p.keylen + 1 }

/-- KEY_WRITE (R171). -/
def execKeyWrite (din : Word) (s : State) : Host.Outcome State Fault Refusal :=
  whenUnlocked s (.next (s.complete (appendKey s.regs din) 0))

/-- The register writes of a CREATE that succeeds (R173). -/
def configure {p : Params} (mode : Mode) (dflt str1 : Bool) (l : Nat) (r : Regs p) : Regs p :=
  { (if dflt then defaultLayout l r else r) with
    mode := mode, lanes := BitVec.ofNat 8 l, stride := if str1 then 1 else BitVec.ofNat 8 l,
    pos := l * p.wpb, cfgValid := true }

/-- CREATE (R173), its checks in the order of R203. -/
def execCreate (mode : Nat) (dflt str1 : Bool) (lanes : Nat) (s : State) : Host.Outcome State Fault Refusal :=
  whenUnlocked s (
    match modeOf mode with
    | none => .next (s.raise .errMode)
    | some md =>
      if lanes = 0 ∨ lanes ∉ s.params.supportedL then .next (s.raise .errLanes)
      else if s.regs.keyCount ≠ s.params.keylen then .next (s.raise .errKeylen)
      else .next (s.complete (configure md dflt str1 lanes s.regs) 0))

/-- DESTROY (R174): ResetState, legal in every state. -/
def execDestroy (s : State) : Host.Outcome State Fault Refusal := .next (s.complete (Regs.reset s.params) 0)

end Sys2Proof.Machine
end

