-- ==== Sys2Proof/Machine/ModeSelect.lean ====
section
/-! DEFINITION. The mode-select multiplexer (42_mode_select.md): InputMux, ChainUpdate and IV_WRITE. -/

namespace Sys2Proof.Machine

/-- InputMux(i) (R150), not "corrected" toward textbook CBC (R151). -/
def inputMux {p : Params} (r : Regs p) (i : Fin p.lmax) : BitVec p.bw :=
  match r.mode with
  | .ctr => ctrBlock p r.ctr[i]
  | .cbc => ctrBlock p r.ctr[i] ^^^ r.prev[i]

/-- ChainUpdate(i, out) (R152): the whole block, and only in CBC mode. -/
def chainUpdate {p : Params} (r : Regs p) (i : Fin p.lmax) (out : BitVec p.bw) : Regs p :=
  match r.mode with
  | .ctr => r
  | .cbc => { r with prev := r.prev.set i out }

/-- `prev[lane][32c+31 : 32c] <- x`. -/
def writePrevChunk {p : Params} (r : Regs p) (lane : Fin p.lmax) (c : Nat) (x : Word) : Regs p :=
  { r with prev := r.prev.set lane (setChunk r.prev[lane] c x) }

/-- IV_WRITE (R153). -/
def execIvWrite (lane c : Nat) (din : Word) (s : State) : Host.Outcome State Fault Refusal :=
  whenUnlocked s (
    if h : lane < s.params.lmax ∧ c < s.params.chunks then
      .next (s.complete (writePrevChunk s.regs ⟨lane, h.1⟩ c din) 0)
    else .next (s.raise .errRange))

end Sys2Proof.Machine
end

