-- ==== Sys2Proof/Machine/RefillBuffer.lean ====
section
/-! DEFINITION. The output buffer, the refill sequencer and NEXT_WORD (41_refill_buffer.md). -/

namespace Sys2Proof.Machine

/-- slot(i, j) for the lane count `l` (R121). -/
def slot (p : Params) (l i j : Nat) : Nat :=
  match p.bufLayout with
  | .laneMajor => i * p.wpb + j
  | .wordMajor => j * l + i

/-- Steps 1 and 2 of REFILL for lane `i` (R120): `E(KeyVec, InputMux(i))` in the state the refill starts from. -/
def outBlock {p : Params} (r : Regs p) (i : Fin p.lmax) : BitVec p.bw := transformBlock p (keyVec r) (inputMux r i)

/-- The buffer writes of step 3 for one lane (R120): word `j` of the block into slot(i, j), for j in 0..WPB-1. -/
def storeBlock {p : Params} (r : Regs p) (i : Fin p.lmax) (out : BitVec p.bw) : Regs p :=
  (List.range p.wpb).foldl (fun a j => bufWrite a (slot p r.lanes.toNat i.val j) (blockword p out j)) r

/-- Step 3 of REFILL for one lane (R120): store the block and, in CBC mode, remember it. -/
def storeLane {p : Params} (out : Fin p.lmax → BitVec p.bw) (r : Regs p) (i : Fin p.lmax) : Regs p :=
  chainUpdate (storeBlock r i (out i)) i (out i)

/-- The lanes 0..L-1 in increasing order. -/
def activeLanes {p : Params} (r : Regs p) : List (Fin p.lmax) :=
  (List.finRange p.lmax).filter fun i => decide (i.val < r.lanes.toNat)

/-- REFILL (R120) with step 3 run over the lanes in the order given: the blocks are formed from the counters as they
stand at the start, ADVANCE runs once, after every block is stored, and then `pos <- 0`. -/
def refillIn {p : Params} (order : List (Fin p.lmax)) (r : Regs p) : Regs p :=
  { advance (order.foldl (storeLane (outBlock r)) r) with pos := 0 }

/-- REFILL (R120): the lanes 0..L-1 upward. -/
def refill {p : Params} (r : Regs p) : Regs p := refillIn (activeLanes r) r

/-- NEXT_WORD's own refill: "if pos = N then REFILL()" (R124). -/
def refillIfExhausted {p : Params} (r : Regs p) : Regs p := if r.pos = bufLen r then refill r else r

/-- NEXT_WORD (R124). -/
def execNextWord (s : State) : Host.Outcome State Fault Refusal :=
  whenConfigured s (
    let r := refillIfExhausted s.regs
    match bufRead r r.pos with
    | some w => .next (s.complete { r with pos := r.pos + 1 } w)
    | none => .fault .cursorOutsideBuffer)

end Sys2Proof.Machine
end

