-- ==== Sys2Proof/Machine/Dispatch.lean ====
section
/-! DEFINITION. The dispatch of a decoded command (43_control.md R170): one arm per command. -/

namespace Sys2Proof.Machine

def exec (i : Instr) (s : State) : Host.Outcome State Fault Refusal :=
  match i with
  | .nop => Sys2Proof.Machine.execNop s
  | .keyWrite din => Sys2Proof.Machine.execKeyWrite din s
  | .ctrWrite lane k din => Sys2Proof.Machine.execCtrWrite lane k din s
  | .ivWrite lane c din => Sys2Proof.Machine.execIvWrite lane c din s
  | .create mode dflt str1 lanes => Sys2Proof.Machine.execCreate mode dflt str1 lanes s
  | .nextWord => Sys2Proof.Machine.execNextWord s
  | .destroy => Sys2Proof.Machine.execDestroy s

end Sys2Proof.Machine
end

