-- ==== Sys2Proof/Machine/Step.lean ====
section
/-! DEFINITION. One step of the KSC: it takes the next event at its port, and a command runs whole (30_encoding.md R70,
43_control.md R170). -/

namespace Sys2Proof.Machine

/-- `Execute(cmd, din)` of R170 on an accepted command: an illegal word completes with ERR_ILLEGAL and changes no
state (R78). -/
def execute (c : Command) (s : State) : Host.Outcome State Fault Refusal :=
  match decode c with
  | .instr i => exec i s
  | .illegal _ => .next (s.raise .errIllegal)

/-- One step: the command the port accepts, executed, or else what the port's event does. -/
def step (s : State) : Host.Outcome State Fault Refusal :=
  match accept s with
  | (some c, s') => execute c s'
  | (none, s') => .next s'

/-- `s` with the host presenting, next, the command whose bits are `w`: the command word in bits 31..0, DIN in bits
63..32. The KSC fetches nothing (R66): commands come from outside, and this stands for the host's own act
(log entry 5). -/
def State.withFetchWord (s : State) (nbits w : Nat) : State := present s (commandOfBits nbits w)

end Sys2Proof.Machine
end

