-- ==== Sys2Proof/Machine/Pseudo.lean ====
section
/-! DEFINITION. The assembler of 30_encoding.md: the text of each command (R80) and the pseudo-instructions (R81). -/

namespace Sys2Proof.Machine

/-- `LOAD_KEY k0, ..., kn-1` (R81). -/
def loadKey (ks : List Word) : List Instr := ks.map .keyWrite

/-- `LOAD_CTR lane=i, v` (R81): words k = 0..W-1, in increasing k. -/
def loadCtr (p : Params) (lane : Nat) (v : BitVec p.m) : List Instr :=
  (List.range p.w).map fun k => .ctrWrite lane k ((ctrWord p.cwb v k).setWidth 32)

/-- `LOAD_IV lane=i, v` (R81): chunks c = 0..BW/32-1. -/
def loadIv (p : Params) (lane : Nat) (v : BitVec p.bw) : List Instr :=
  (List.range p.chunks).map fun c => .ivWrite lane c (getBits v (32 * c) 32)

/-- `READ n` (R81). -/
def readWords (n : Nat) : List Instr := List.replicate n .nextWord

/-- The mode of a CREATE as the assembler writes it: a name where there is one, else the number (R80). -/
def modeText (mode : Nat) : String :=
  match modeOf mode with
  | some .ctr => "CTR"
  | some .cbc => "CBC"
  | none => toString mode

/-- The assembler text of a command (R80), numbers in decimal. -/
def asmText : Instr → String
  | .nop => "NOP"
  | .keyWrite din => "KEY_WRITE " ++ toString din.toNat
  | .ctrWrite lane k din => "CTR_WRITE lane=" ++ toString lane ++ ", word=" ++ toString k ++ ", " ++ toString din.toNat
  | .ivWrite lane c din => "IV_WRITE lane=" ++ toString lane ++ ", chunk=" ++ toString c ++ ", " ++ toString din.toNat
  | .create mode dflt str1 lanes =>
    "CREATE mode=" ++ modeText mode ++ ", lanes=" ++ toString lanes ++ (if dflt then ", dflt" else "") ++
      (if str1 then ", stride1" else "")
  | .nextWord => "NEXT_WORD"
  | .destroy => "DESTROY"

/-- `.cmd <32-bit word>, <din>` (R80): a raw command, for reserved or illegal words. -/
def rawText (c : Command) : String := ".cmd " ++ toString c.cmd.toNat ++ ", " ++ toString c.din.toNat

end Sys2Proof.Machine
end

