-- ==== Sys2Proof/Safety.lean ====
section
/-! DEFINITION. The terms the claims use: the invariants of the registers, what the host observes (00_scope.md R19), and
runs of several commands. -/

namespace Sys2Proof.Machine

/-- The invariant of the control registers, R29's two clauses. -/
def Regs.ControlInv {p : Params} (r : Regs p) : Prop :=
  (r.cfgValid = false → r.mode = .ctr ∧ r.lanes = 0 ∧ r.stride = 0 ∧ r.pos = 0) ∧
  (r.cfgValid = true →
    r.lanes.toNat ∈ p.supportedL ∧ (r.stride = r.lanes ∨ r.stride = 1) ∧ r.pos ≤ r.lanes.toNat * p.wpb)

/-- key_count saturates at KEYLEN+1 and is KEYLEN while configured (R34, R173), and a key word not yet written holds
its reset value (R33). -/
def Regs.KeyInv {p : Params} (r : Regs p) : Prop :=
  r.keyCount ≤ p.keylen + 1 ∧ (r.cfgValid = true → r.keyCount = p.keylen) ∧
  ∀ (j : Nat) (h : j < p.keylen), r.keyCount ≤ j → r.key[j] = 0

/-- Only the first N words of the buffer are ever filled (R32); the others hold their reset value, and so does every
word while unconfigured, where N = 0. -/
def Regs.BufferInv {p : Params} (r : Regs p) : Prop :=
  ∀ (j : Nat) (h : j < p.nmax), bufLen r ≤ j → r.buf[j] = 0

/-- An error response carries DOUT = 0 (R201). -/
def State.ResponseInv (s : State) : Prop :=
  ∀ r, s.response = some r → r.status ≠ .ok → r.dout = 0

/-- What every state reached from reset satisfies. -/
structure State.Inv (s : State) : Prop where
  built : s.params.Wf
  control : s.regs.ControlInv
  key : s.regs.KeyInv
  buffer : s.regs.BufferInv
  response : s.ResponseInv

/-- What the host observes of a state: the status and DOUT of the response, if there is one (R19, R39). -/
def observe (s : State) : Option (Status × Nat) := s.response.map fun r => (r.status, r.dout.toNat)

/-- The state an outcome goes on in, if it goes on. -/
def goesOn : Host.Outcome State Fault Refusal → Option State
  | .next s => some s
  | .fault _ => none
  | .refused _ => none

/-- The state after a list of commands. -/
def runAll : List Instr → State → Option State
  | [], s => some s
  | i :: rest, s => (goesOn (exec i s)).bind (runAll rest)

/-- What the host observes of each command of a list, with the state after the last one. -/
def traceAll : List Instr → State → Option (List (Option (Status × Nat)) × State)
  | [], s => some ([], s)
  | i :: rest, s =>
    (goesOn (exec i s)).bind fun t => (traceAll rest t).map fun r => (observe t :: r.1, r.2)

/-- The registers after `n` refills and nothing else. -/
def refills {p : Params} : Nat → Regs p → Regs p
  | 0, r => r
  | n + 1, r => refills n (refill r)

/-- The registers after `n` ADVANCEs and nothing else. -/
def advances {p : Params} : Nat → Regs p → Regs p
  | 0, r => r
  | n + 1, r => advances n (advance r)

/-- A configuration in which every word has been read, as a successful CREATE leaves it: pos = N (R173, R31). -/
def Regs.Exhausted {p : Params} (r : Regs p) : Prop := r.cfgValid = true ∧ r.pos = bufLen r

/-- The states reached from reset by a KSC built with `p`, whatever the host presents at its port (R61, R62). -/
inductive State.Reachable (p : Params) : State → Prop where
  | reset : State.Reachable p (State.resetOf p)
  | step {s t : State} (inputs : List PortEvent) (reached : State.Reachable p s)
      (next : step { s with inputs := inputs } = .next t) : State.Reachable p t

/-- The errors a command can raise and whether the cause of each is present: the columns "raised by" and "cause" of
R200, each row by itself and whatever the others say. -/
def causesOf (i : Instr) (s : State) : List (Status × Bool) :=
  match i with
  | .nop => []
  | .keyWrite _ => [(.errLocked, s.regs.cfgValid)]
  | .ctrWrite lane k _ =>
    [(.errLocked, s.regs.cfgValid), (.errRange, decide (s.params.lmax ≤ lane ∨ s.params.w ≤ k))]
  | .ivWrite lane c _ =>
    [(.errLocked, s.regs.cfgValid), (.errRange, decide (s.params.lmax ≤ lane ∨ s.params.bw / 32 ≤ c))]
  | .create mode _ _ lanes =>
    [(.errMode, decide (mode = 2 ∨ mode = 3)), (.errLanes, decide (lanes = 0 ∨ lanes ∉ s.params.supportedL)),
      (.errKeylen, decide (s.regs.keyCount ≠ s.params.keylen)), (.errLocked, s.regs.cfgValid)]
  | .nextWord => [(.errNotcfg, !s.regs.cfgValid)]
  | .destroy => []

/-- Whether the cause of an error is present when a command is executed (R200). -/
def causePresent (c : Command) (s : State) (st : Status) : Bool :=
  match decode c with
  | .illegal _ => decide (st = .errIllegal)
  | .instr i => (causesOf i s).any fun x => decide (x.1 = st) && x.2

/-- The order in which the causes are reported (R203). -/
def reportOrder : List Status :=
  [.errIllegal, .errLocked, .errNotcfg, .errRange, .errMode, .errLanes, .errKeylen]

/-- Two register files that agree on all that a stream depends on: the configuration, the key, and the counters and,
in CBC mode, the prev blocks of the lanes 0..L-1 (R106, R128, R157). -/
def Regs.SameStream {p : Params} (a b : Regs p) : Prop :=
  a.mode = b.mode ∧ a.lanes = b.lanes ∧ a.stride = b.stride ∧ a.key = b.key ∧
  (∀ i : Fin p.lmax, i.val < a.lanes.toNat → a.ctr[i] = b.ctr[i]) ∧
  (a.mode = .cbc → ∀ i : Fin p.lmax, i.val < a.lanes.toNat → a.prev[i] = b.prev[i])

end Sys2Proof.Machine
end

