-- ==== Sys2Proof/Certificates/Slice0/Obligations.lean ====
section
/-! DEFINITION. The statements for the provers. Each docstring names the rules of spec/ it formalises. -/

open Sys2Proof Sys2Proof.Machine

/-! ## Encoding -/

/-- The worked encodings of R82, both ways, whatever DIN is. -/
def Obligations.WorkedEncodingsDecode : Prop :=
  ∀ din : Word,
    decode ⟨0x00000244, din⟩ = .instr (.create 0 true false 2) ∧
    decode ⟨0x00000254, din⟩ = .instr (.create 1 true false 2) ∧
    decode ⟨0x00000104, din⟩ = .instr (.create 0 false false 1) ∧
    decode ⟨0x000004D4, din⟩ = .instr (.create 1 true true 4) ∧
    decode ⟨0x00010002, din⟩ = .instr (.ctrWrite 0 1 din) ∧
    decode ⟨0x00010103, din⟩ = .instr (.ivWrite 1 1 din) ∧
    decode ⟨0x00000005, din⟩ = .instr .nextWord ∧
    (encode (.create 0 true false 2)).cmd = 0x00000244 ∧
    (encode (.create 1 true false 2)).cmd = 0x00000254 ∧
    (encode (.create 0 false false 1)).cmd = 0x00000104 ∧
    (encode (.create 1 true true 4)).cmd = 0x000004D4 ∧
    encode (.ctrWrite 0 1 din) = ⟨0x00010002, din⟩ ∧
    encode (.ivWrite 1 1 din) = ⟨0x00010103, din⟩ ∧
    (encode .nextWord).cmd = 0x00000005

/-- R74: match and mask of each row select its command and no other, and no command word matches two rows. -/
def Obligations.MatchAndMaskSelectTheCommand : Prop :=
  (∀ c : Command,
    ((decode c).mnemonic? = some "NOP" ↔ c.cmd &&& 0xFFFFFFFF = 0x00000000) ∧
    ((decode c).mnemonic? = some "KEY_WRITE" ↔ c.cmd &&& 0xFFFFFFFF = 0x00000001) ∧
    ((decode c).mnemonic? = some "CTR_WRITE" ↔ c.cmd &&& 0xFF0000FF = 0x00000002) ∧
    ((decode c).mnemonic? = some "IV_WRITE" ↔ c.cmd &&& 0xFF0000FF = 0x00000003) ∧
    ((decode c).mnemonic? = some "CREATE" ↔ c.cmd &&& 0xFFFF000F = 0x00000004) ∧
    ((decode c).mnemonic? = some "NEXT_WORD" ↔ c.cmd &&& 0xFFFFFFFF = 0x00000005) ∧
    ((decode c).mnemonic? = some "DESTROY" ↔ c.cmd &&& 0xFFFFFFFF = 0x00000006)) ∧
  ∀ (c : Word) (op op' : Nat) (row row' : OpcodeRow),
    rowOf op = some row → rowOf op' = some row' →
    c &&& row.mask = row.pattern → c &&& row'.mask = row'.pattern → row = row'

/-- R78 with the fields of R72: which command words are illegal, and that one completes with ERR_ILLEGAL and DOUT = 0
and changes no state. -/
def Obligations.IllegalWordsCompleteWithErrIllegal : Prop :=
  ∀ (c : Command) (s : State),
    ((∃ why, decode c = .illegal why) ↔
      7 ≤ field c.cmd 0 4 ∨
      ((field c.cmd 0 4 = 0 ∨ field c.cmd 0 4 = 1 ∨ field c.cmd 0 4 = 5 ∨ field c.cmd 0 4 = 6) ∧
        (field c.cmd 4 4 ≠ 0 ∨ field c.cmd 8 8 ≠ 0 ∨ field c.cmd 16 8 ≠ 0 ∨ field c.cmd 24 8 ≠ 0)) ∨
      ((field c.cmd 0 4 = 2 ∨ field c.cmd 0 4 = 3) ∧ (field c.cmd 4 4 ≠ 0 ∨ field c.cmd 24 8 ≠ 0)) ∨
      (field c.cmd 0 4 = 4 ∧ (field c.cmd 16 8 ≠ 0 ∨ field c.cmd 24 8 ≠ 0))) ∧
    ((∃ why, decode c = .illegal why) →
      execute c s = .next { s with response := some ⟨.errIllegal, 0⟩ })

/-- Decoding the encoding of a well-formed command gives it back, with every operand at every value its field admits
(R72, R75 to R77). -/
def Obligations.DecodeInvertsEncode : Prop :=
  ∀ i : Instr, i.wf = true → decode (encode i) = .instr i

/-- A word that decodes is the encoding of what it decodes to, but for a DIN the command ignores, and its operands fit
their fields (R72, R75 to R77). -/
def Obligations.EncodeInvertsDecode : Prop :=
  ∀ (c : Command) (i : Instr), decode c = .instr i →
    i.wf = true ∧ (encode i).cmd = c.cmd ∧ (i.usesDin = true → (encode i).din = c.din)

/-- R77: "DIN is ignored by NOP, CREATE, NEXT_WORD and DESTROY: any value gives the same result." -/
def Obligations.IgnoredDataWordHasNoEffect : Prop :=
  ∀ (cmd din din' : Word) (i : Instr), decode ⟨cmd, din⟩ = .instr i → i.usesDin = false →
    ∀ s : State, execute ⟨cmd, din'⟩ s = execute ⟨cmd, din⟩ s

/-! ## Steps, reset, invariants -/

/-- A step executes the command the port accepts next: the decoded instruction, or ERR_ILLEGAL where there is none
(R170), in the state whose inputs are the rest. Two parts are the model's choice and no rule of the spec: that what the
port accepts is the list `inputs` (log entry 6, DESIGN CHOICE), and the third clause, in which `withFetchWord` stands for
the host presenting one command (log entry 5, DESIGN CHOICE). -/
def Obligations.StepRunsTheDecodedCommand : Prop :=
  ∀ (s : State) (c : Command) (rest : List PortEvent), s.inputs = .command c :: rest →
    (∀ i, decode c = .instr i → step s = exec i { s with inputs := rest }) ∧
    (∀ why, decode c = .illegal why → step s = .next (State.raise { s with inputs := rest } .errIllegal)) ∧
    ∀ nbits w i, decodeTableWord nbits w = some i → step (s.withFetchWord nbits w) = exec i s

/-- A step takes exactly one event, the next one, in the order the port accepts them, and no command puts one there
(R61, R66); with no command presented the state is held (R215); no step writes an instance parameter (R234, R8). That
the inputs are a list (log entry 6), that a reset leaves those behind it and that a response lasts one step (log entry
7), and that the parameters stand in State (log entry 1), are the model's choices. -/
def Obligations.StepTakesOneEvent : Prop :=
  (∀ s t : State, step s = .next t → t.inputs = s.inputs.tail ∧ t.params = s.params) ∧
  (∀ s : State, s.inputs = [] → step s = .next { s with response := none }) ∧
  ∀ (s : State) (rest : List PortEvent), s.inputs = .idle :: rest →
    step s = .next { s with response := none, inputs := rest }

/-- What R230 and R232 say of reset and DESTROY, in the model's port: rst_n low puts every element to its reset value and
no response is delivered, whether or not a command was outstanding; DESTROY does the same in every state and completes
with OK. That a reset is one entry of `inputs` (log entry 6) and leaves the entries behind it in place (log entry 7) is the
model's DESIGN CHOICE; that it carries the outstanding command, which has no effect (log entry 13), is DEDUCED. -/
def Obligations.ResetAndDestroyClearEverything : Prop :=
  (∀ (s : State) (outstanding : Option Command) (rest : List PortEvent), s.inputs = .reset outstanding :: rest →
    step s = .next { s with regs := Regs.reset s.params, response := none, inputs := rest }) ∧
  (∀ s : State, exec .destroy s = .next { s with regs := Regs.reset s.params, response := some ⟨.ok, 0⟩ }) ∧
  ∀ p : Params,
    (Regs.reset p).cfgValid = false ∧ (Regs.reset p).mode = .ctr ∧ (Regs.reset p).lanes = 0 ∧
    (Regs.reset p).stride = 0 ∧ (Regs.reset p).pos = 0 ∧ (Regs.reset p).keyCount = 0 ∧
    (∀ (i : Nat) (h : i < p.lmax), (Regs.reset p).ctr[i] = 0 ∧ (Regs.reset p).prev[i] = 0) ∧
    (∀ (j : Nat) (h : j < p.nmax), (Regs.reset p).buf[j] = 0) ∧
    ∀ (k : Nat) (h : k < p.keylen), (Regs.reset p).key[k] = 0

/-- The state after reset meets the invariant, for every KSC that can be built. -/
def Obligations.ResetMeetsTheInvariant : Prop :=
  State.reset.Inv ∧ ∀ p : Params, p.Wf → (State.resetOf p).Inv

/-- R29: every step keeps the invariant of the control registers. -/
def Obligations.StepKeepsTheControlInvariant : Prop :=
  ∀ s t : State, s.params.Wf → s.regs.ControlInv → step s = .next t → t.regs.ControlInv

/-- Every step keeps the whole invariant: R29's, key_count's (R34), the unfilled buffer words (R32), the DOUT of an
error (R201) and the parameters' limits (R8). -/
def Obligations.StepKeepsTheInvariant : Prop :=
  ∀ s t : State, s.Inv → step s = .next t → t.Inv

/-- A state that meets the invariant never stops, whatever is at the port: every word completes with a status. -/
def Obligations.StepNeverStops : Prop :=
  ∀ s : State, s.Inv → ∃ t, step s = .next t

/-- Only a successful CREATE sets cfg_valid, and only DESTROY and reset clear it (R25). -/
def Obligations.OnlyCreateConfigures : Prop :=
  ∀ s t : State, step s = .next t →
    (s.regs.cfgValid = false → t.regs.cfgValid = true →
      ∃ c rest mode dflt str1 lanes, s.inputs = .command c :: rest ∧
        decode c = .instr (.create mode dflt str1 lanes) ∧ observe t = some (.ok, 0)) ∧
    (s.regs.cfgValid = true → t.regs.cfgValid = false →
      (∃ c rest, s.inputs = .command c :: rest ∧ decode c = .instr .destroy) ∨
      ∃ outstanding rest, s.inputs = .reset outstanding :: rest)

/-- R155: while cfg_valid = 1 a step keeps the mode (with it lanes, stride, the key and key_count, R26 to R28) unless it
clears everything; every command that could change it is refused with ERR_LOCKED and changes nothing; and a mode that
changes was written by a CREATE, or cleared. -/
def Obligations.ModeIsFixedForTheLifeOfAConfiguration : Prop :=
  (∀ s t : State, s.regs.cfgValid = true → step s = .next t →
    t.regs = Regs.reset t.params ∨
    (t.regs.cfgValid = true ∧ t.regs.mode = s.regs.mode ∧ t.regs.lanes = s.regs.lanes ∧
      t.regs.stride = s.regs.stride ∧ t.regs.key.toList = s.regs.key.toList ∧
      t.regs.keyCount = s.regs.keyCount)) ∧
  (∀ s : State, s.regs.cfgValid = true →
    (∀ din, exec (.keyWrite din) s = .next { s with response := some ⟨.errLocked, 0⟩ }) ∧
    (∀ lane k din, exec (.ctrWrite lane k din) s = .next { s with response := some ⟨.errLocked, 0⟩ }) ∧
    (∀ lane c din, exec (.ivWrite lane c din) s = .next { s with response := some ⟨.errLocked, 0⟩ }) ∧
    ∀ mode dflt str1 lanes,
      exec (.create mode dflt str1 lanes) s = .next { s with response := some ⟨.errLocked, 0⟩ }) ∧
  ∀ (s t : State) (i : Instr), exec i s = .next t → t.regs.mode ≠ s.regs.mode →
    i = .destroy ∨ ∃ mode dflt str1 lanes, i = .create mode dflt str1 lanes

/-! ## Errors -/

/-- R200 and R203: the codes, and that a command's status is the first of its causes in the fixed order, OK where there
is none. -/
def Obligations.StatusIsTheFirstCause : Prop :=
  (Status.ok.code = 0 ∧ Status.errIllegal.code = 1 ∧ Status.errMode.code = 2 ∧ Status.errLanes.code = 3 ∧
    Status.errKeylen.code = 4 ∧ Status.errNotcfg.code = 5 ∧ Status.errLocked.code = 6 ∧ Status.errRange.code = 7 ∧
    ∀ st : Status, st.code.toNat < 8) ∧
  (∀ (c : Command) (s t : State), execute c s = .next t →
    (observe t).map Prod.fst = some ((reportOrder.find? (causePresent c s)).getD .ok)) ∧
  ∀ (p : Params) (din : Word), p.keylen = 2 →
    execute ⟨0x00000034, din⟩ (State.resetOf p) = .next ((State.resetOf p).raise .errMode)

/-- R201: an error comes back in the response of its command, with DOUT = 0, and the state is the same as before. -/
def Obligations.ErrorsArePrecise : Prop :=
  ∀ (c : Command) (s t : State), execute c s = .next t →
    ∃ st dout, observe t = some (st, dout) ∧
      (st ≠ .ok → dout = 0 ∧ t = { s with response := some ⟨st, 0⟩ })

/-- R208: a failed command followed by any other behaves as if the failed one had not been issued. -/
def Obligations.FailedCommandLeavesNoTrace : Prop :=
  ∀ (c : Command) (s t : State), execute c s = .next t → (observe t).map Prod.fst ≠ some .ok →
    ∀ c' : Command, execute c' t = execute c' s

/-- DOUT is 0 for every command but a successful NEXT_WORD (R58). -/
def Obligations.OnlyNextWordReturnsData : Prop :=
  ∀ (i : Instr) (s t : State), exec i s = .next t → i ≠ .nextWord ∨ s.regs.cfgValid = false →
    (observe t).map Prod.snd = some 0

/-- R202: once configured, the word 0x00000005 always completes with OK, and the core stays configured. -/
def Obligations.HotPathNeverFails : Prop :=
  ∀ (s : State) (din : Word), s.Inv → s.regs.cfgValid = true →
    ∃ (r : Regs s.params) (w : BitVec s.params.owb),
      execute ⟨0x00000005, din⟩ s = .next { s with regs := r, response := some ⟨.ok, w⟩ } ∧ r.cfgValid = true

/-- R231: after reset NEXT_WORD returns ERR_NOTCFG, and the configuration commands are accepted. -/
def Obligations.AfterResetOnlyNextWordIsRefused : Prop :=
  ∀ p : Params,
    (State.resetOf p).regs.cfgValid = false ∧
    exec .nextWord (State.resetOf p) = .next ((State.resetOf p).raise .errNotcfg) ∧
    (∀ din, ∃ r, exec (.keyWrite din) (State.resetOf p) = .next ((State.resetOf p).complete r 0)) ∧
    (∀ lane k din, lane < p.lmax → k < p.w →
      ∃ r, exec (.ctrWrite lane k din) (State.resetOf p) = .next ((State.resetOf p).complete r 0)) ∧
    (∀ lane c din, lane < p.lmax → c < p.chunks →
      ∃ r, exec (.ivWrite lane c din) (State.resetOf p) = .next ((State.resetOf p).complete r 0)) ∧
    ∀ mode dflt str1 lanes, ∃ u st, exec (.create mode dflt str1 lanes) (State.resetOf p) = .next u ∧
      observe u = some (st, 0) ∧ st ≠ .errLocked

/-! ## Construction and control -/

/-- R172: NOP completes with OK and DOUT = 0 in every state and does nothing; its encoding is the all-zero word, and any
other word with OP = 0 completes with ERR_ILLEGAL. -/
def Obligations.NopDoesNothing : Prop :=
  (∀ s : State, exec .nop s = .next { s with response := some ⟨.ok, 0⟩ }) ∧
  (∀ din, decode ⟨0x00000000, din⟩ = .instr .nop) ∧
  ∀ (c : Command) (s : State), field c.cmd 0 4 = 0 → c.cmd ≠ 0 →
    execute c s = .next { s with response := some ⟨.errIllegal, 0⟩ }

/-- KEY_WRITE (43_control.md section 2) in an unconfigured core: it completes with OK, appends its word while there is
room and otherwise marks the key as too long, and writes nothing else. -/
def Obligations.KeyWriteAppendsOneWord : Prop :=
  ∀ (s : State) (din : Word), s.regs.cfgValid = false →
    (∀ h : s.regs.keyCount < s.params.keylen, ∃ key : Vector Word s.params.keylen,
      exec (.keyWrite din) s =
        .next (s.complete { s.regs with key := key, keyCount := s.regs.keyCount + 1 } 0) ∧
      key[s.regs.keyCount] = din ∧
      ∀ (j : Nat) (hj : j < s.params.keylen), j ≠ s.regs.keyCount → key[j] = s.regs.key[j]) ∧
    (s.params.keylen ≤ s.regs.keyCount →
      exec (.keyWrite din) s = .next (s.complete { s.regs with keyCount := s.params.keylen + 1 } 0))

/-- LOAD_KEY on an unconfigured core (R81, R34, R33): key_count counts the words, saturating at KEYLEN+1, the words that
fit stand in order, and CREATE then finds the key length wrong exactly when the count is not KEYLEN. -/
def Obligations.LoadKeyCountsAndStoresTheWords : Prop :=
  ∀ (s : State) (ks : List Word), s.regs.cfgValid = false → s.regs.keyCount ≤ s.params.keylen + 1 →
    ∃ (key : Vector Word s.params.keylen) (resp : Option (Response s.params.owb)),
      runAll (loadKey ks) s = some { s with
        regs := { s.regs with
          key := key, keyCount := min (s.regs.keyCount + ks.length) (s.params.keylen + 1) },
        response := resp } ∧
      (∀ (j : Nat) (h : j < s.params.keylen),
        key[j] = if s.regs.keyCount ≤ j then (ks[j - s.regs.keyCount]?).getD s.regs.key[j] else s.regs.key[j]) ∧
      ∀ (mode lanes : Nat) (dflt str1 : Bool) (t u : State), mode < 2 → lanes ≠ 0 → lanes ∈ s.params.supportedL →
        runAll (loadKey ks) s = some t → exec (.create mode dflt str1 lanes) t = .next u →
        ((observe u).map Prod.fst = some .errKeylen ↔
          min (s.regs.keyCount + ks.length) (s.params.keylen + 1) ≠ s.params.keylen)

/-- CTR_WRITE (40_counter_bank.md section 1) in an unconfigured core: it completes with OK for an index in range, word k
of that lane's counter is DIN, every other word and lane and every other register is unchanged; an index out of range
gives ERR_RANGE and no change. -/
def Obligations.CtrWriteWritesOneWord : Prop :=
  ∀ (s : State) (lane k : Nat) (din : Word), s.regs.cfgValid = false →
    (∀ (hl : lane < s.params.lmax), k < s.params.w →
      ∃ ctr : Vector (BitVec s.params.m) s.params.lmax,
        exec (.ctrWrite lane k din) s = .next (s.complete { s.regs with ctr := ctr } 0) ∧
        ctrWord s.params.cwb ctr[lane] k = din.setWidth s.params.cwb ∧
        (∀ k', k' < s.params.w → k' ≠ k →
          ctrWord s.params.cwb ctr[lane] k' = ctrWord s.params.cwb s.regs.ctr[lane] k') ∧
        ∀ (i : Nat) (hi : i < s.params.lmax), i ≠ lane → ctr[i] = s.regs.ctr[i]) ∧
    (s.params.lmax ≤ lane ∨ s.params.w ≤ k →
      exec (.ctrWrite lane k din) s = .next { s with response := some ⟨.errRange, 0⟩ })

/-- IV_WRITE (42_mode_select.md section 2) in an unconfigured core: it completes with OK for an index in range, chunk c
of that lane's prev block is DIN, every other bit and lane and every other register is unchanged; an index out of range
gives ERR_RANGE and no change. -/
def Obligations.IvWriteWritesOneChunk : Prop :=
  ∀ (s : State) (lane c : Nat) (din : Word), s.regs.cfgValid = false →
    (∀ (hl : lane < s.params.lmax), c < s.params.bw / 32 →
      ∃ prev : Vector (BitVec s.params.bw) s.params.lmax,
        exec (.ivWrite lane c din) s = .next (s.complete { s.regs with prev := prev } 0) ∧
        (∀ b, b < s.params.bw → prev[lane].getLsbD b =
          if 32 * c ≤ b ∧ b < 32 * c + 32 then din.getLsbD (b - 32 * c) else s.regs.prev[lane].getLsbD b) ∧
        ∀ (i : Nat) (hi : i < s.params.lmax), i ≠ lane → prev[i] = s.regs.prev[i]) ∧
    (s.params.lmax ≤ lane ∨ s.params.bw / 32 ≤ c →
      exec (.ivWrite lane c din) s = .next { s with response := some ⟨.errRange, 0⟩ })

/-- CTR_WRITE and IV_WRITE are idempotent (R59). -/
def Obligations.IndexedWritesAreIdempotent : Prop :=
  ∀ (s : State) (lane k : Nat) (din : Word),
    runAll [.ctrWrite lane k din, .ctrWrite lane k din] s = runAll [.ctrWrite lane k din] s ∧
    runAll [.ivWrite lane k din, .ivWrite lane k din] s = runAll [.ivWrite lane k din] s

/-- KEY_WRITE, CTR_WRITE and IV_WRITE may come in any order: each writes a different register (R175). -/
def Obligations.ConfigurationWritesCommute : Prop :=
  ∀ (s : State) (lane k lane' c : Nat) (d d' d'' : Word),
    (runAll [.keyWrite d, .ctrWrite lane k d'] s).map State.hold =
      (runAll [.ctrWrite lane k d', .keyWrite d] s).map State.hold ∧
    (runAll [.keyWrite d, .ivWrite lane' c d''] s).map State.hold =
      (runAll [.ivWrite lane' c d'', .keyWrite d] s).map State.hold ∧
    (runAll [.ctrWrite lane k d', .ivWrite lane' c d''] s).map State.hold =
      (runAll [.ivWrite lane' c d'', .ctrWrite lane k d'] s).map State.hold

/-- LOAD_CTR and LOAD_IV leave the lane's counter and prev block at the value given and change nothing else: their
expansions (R81), with what CTR_WRITE (R100) and IV_WRITE (R153) do to a word (R52) and a chunk (R55). -/
def Obligations.LoadPseudoInstructionsSetTheWholeValue : Prop :=
  ∀ (s : State) (lane : Nat) (hl : lane < s.params.lmax), s.params.Wf → s.regs.cfgValid = false →
    (∀ v : BitVec s.params.m, ∃ resp,
      runAll (loadCtr s.params lane v) s =
        some { s with regs := { s.regs with ctr := s.regs.ctr.set lane v }, response := resp }) ∧
    ∀ v : BitVec s.params.bw, ∃ resp,
      runAll (loadIv s.params lane v) s =
        some { s with regs := { s.regs with prev := s.regs.prev.set lane v }, response := resp }

/-- CREATE (43_control.md section 4) in an unconfigured core with a known mode, a supported lane count and a key of the
right length: it completes with OK and leaves the configuration asked for, the buffer exhausted, and every other
register as it was. -/
def Obligations.CreateConfiguresTheCore : Prop :=
  ∀ (s : State) (mode l : Nat) (dflt str1 : Bool), s.params.Wf → s.regs.cfgValid = false → mode < 2 →
    l ∈ s.params.supportedL → s.regs.keyCount = s.params.keylen →
    ∃ r : Regs s.params,
      exec (.create mode dflt str1 l) s = .next (s.complete r 0) ∧
      r.cfgValid = true ∧ r.mode = (if mode = 0 then Mode.ctr else Mode.cbc) ∧ r.lanes.toNat = l ∧
      r.pos = l * s.params.wpb ∧ r.Exhausted ∧
      r.prev = s.regs.prev ∧ r.buf = s.regs.buf ∧ r.key = s.regs.key ∧ r.keyCount = s.regs.keyCount

/-- R102 and R104: the counters and the stride a successful CREATE leaves. -/
def Obligations.CreateLaysOutTheCountersAndTheStride : Prop :=
  ∀ (s : State) (mode l : Nat) (dflt str1 : Bool) (r : Regs s.params), s.params.Wf → s.regs.cfgValid = false →
    exec (.create mode dflt str1 l) s = .next (s.complete r 0) →
    (∀ (i : Nat) (hi : i < s.params.lmax), dflt = true → i < l →
      ctrWord s.params.cwb r.ctr[i] 0 = BitVec.ofNat s.params.cwb i ∧
      (∀ k, 0 < k → k < s.params.w → ctrWord s.params.cwb r.ctr[i] k = 0) ∧ r.ctr[i].toNat = i) ∧
    (∀ (i : Nat) (hi : i < s.params.lmax), dflt = false ∨ l ≤ i → r.ctr[i] = s.regs.ctr[i]) ∧
    r.stride.toNat = (if str1 then 1 else l) ∧ r.stride.toNat < 2 ^ s.params.cwb

/-! ## The counter bank -/

/-- R105: ADVANCE's ripple of carries is modular addition on the whole counter, for each lane 0..L-1; the other lanes
keep their counters. -/
def Obligations.AdvanceIsModularAddition : Prop :=
  ∀ (p : Params) (r : Regs p), p.Wf → ∀ (i : Nat) (hi : i < p.lmax),
    (i < r.lanes.toNat → (advance r).ctr[i] =
      ((r.ctr[i].setWidth (p.m + 1) + r.stride.setWidth (p.m + 1)).setWidth p.m)) ∧
    (r.lanes.toNat ≤ i → (advance r).ctr[i] = r.ctr[i])

/-- R110: a lane's counter wraps at 2^M, the carry out of its top word discarded (R107); ADVANCE of a lane reads only its
counter and the stride; and nothing but the counters is written. -/
def Obligations.CarriesStayInTheirLane : Prop :=
  ∀ (p : Params) (a b : Regs p), p.Wf →
    advance a = { a with ctr := (advance a).ctr } ∧
    ∀ (i : Nat) (hi : i < p.lmax), i < a.lanes.toNat → i < b.lanes.toNat → a.stride = b.stride →
      (advance a).ctr[i].toNat = (a.ctr[i].toNat + a.stride.toNat) % 2 ^ p.m ∧
      (a.ctr[i] = b.ctr[i] → (advance a).ctr[i] = (advance b).ctr[i])

/-- R108: the counter after n ADVANCEs; that each lane's counter, and the whole bank, is back at its initial value after
exactly the multiples of P = 2^M / gcd(stride, 2^M); P for an odd stride and for a power of two; that a CTR refill
depends on the key and the counters alone; and that the CTR keystream repeats after P * N words. -/
def Obligations.CounterBankPeriod : Prop :=
  ∀ (p : Params) (r : Regs p), p.Wf →
    (∀ (n i : Nat) (hi : i < p.lmax), i < r.lanes.toNat →
      (advances n r).ctr[i].toNat = (r.ctr[i].toNat + n * r.stride.toNat) % 2 ^ p.m) ∧
    (∀ (n i : Nat) (hi : i < p.lmax), i < r.lanes.toNat →
      ((advances n r).ctr[i] = r.ctr[i] ↔ 2 ^ p.m / Nat.gcd r.stride.toNat (2 ^ p.m) ∣ n)) ∧
    (0 < r.lanes.toNat → r.lanes.toNat ≤ p.lmax → ∀ n,
      ((∀ (i : Nat) (hi : i < p.lmax), i < r.lanes.toNat → (advances n r).ctr[i] = r.ctr[i]) ↔
        2 ^ p.m / Nat.gcd r.stride.toNat (2 ^ p.m) ∣ n)) ∧
    (r.stride.toNat % 2 = 1 → 2 ^ p.m / Nat.gcd r.stride.toNat (2 ^ p.m) = 2 ^ p.m) ∧
    (∀ k, r.stride.toNat = 2 ^ k → r.stride = r.lanes →
      2 ^ p.m / Nat.gcd r.stride.toNat (2 ^ p.m) = 2 ^ p.m / r.lanes.toNat) ∧
    (∀ a : Regs p, a.mode = .ctr → r.mode = .ctr → a.lanes = r.lanes → a.key = r.key → r.lanes.toNat ≤ p.lmax →
      (∀ (i : Nat) (hi : i < p.lmax), i < r.lanes.toNat → a.ctr[i] = r.ctr[i]) →
      ∀ (q : Nat) (hq : q < p.nmax), q < bufLen r → (refill a).buf[q] = (refill r).buf[q]) ∧
    ∀ (s : State) (t : Nat), s.Inv → s.regs.Exhausted → s.regs.mode = .ctr →
      (runAll (readWords
        (t + 2 ^ s.params.m / Nat.gcd s.regs.stride.toNat (2 ^ s.params.m) * bufLen s.regs + 1)) s).bind observe =
      (runAll (readWords (t + 1)) s).bind observe

/-- R109: from the default layout with stride L, refill n uses the counter i + n * L mod 2^M for lane i, and over R
refills with R ≤ 2^M / L, so before any counter wraps, these are the integers 0 .. L * R - 1, each once; without the default layout CREATE succeeds whatever the counters hold, colliding or not. -/
def Obligations.DefaultLayoutLanesDoNotCollideBeforeTheWrap : Prop :=
  ∀ (p : Params) (md : Mode) (l : Nat) (r0 : Regs p), p.Wf → l ∈ p.supportedL →
    let r := configure md true false l r0
    (∀ (n i : Nat) (hi : i < p.lmax), i < l → (refills n r).ctr[i].toNat = (i + n * l) % 2 ^ p.m) ∧
    (∀ (s : State) (mode l' : Nat) (str1 : Bool), s.params = p → s.regs.cfgValid = false → mode < 2 →
      l' ∈ p.supportedL → s.regs.keyCount = p.keylen →
      ∃ u, exec (.create mode false str1 l') s = .next u ∧ observe u = some (.ok, 0) ∧
        u.regs.ctr.toList.map BitVec.toNat = s.regs.ctr.toList.map BitVec.toNat) ∧
    ∀ R, R ≤ 2 ^ p.m / l →
      (∀ n, n < R → ∀ (i : Nat) (hi : i < p.lmax), i < l →
        (refills n r).ctr[i].toNat = i + n * l ∧ i + n * l < l * R) ∧
      (∀ v, v < l * R → ∃ n i, ∃ hi : i < p.lmax, n < R ∧ i < l ∧ (refills n r).ctr[i].toNat = v) ∧
      ∀ n n' i i' (hi : i < p.lmax) (hi' : i' < p.lmax), n < R → n' < R → i < l → i' < l →
        (refills n r).ctr[i] = (refills n' r).ctr[i'] → n = n' ∧ i = i'

/-! ## The multiplexer, the refill and the stream -/

/-- R150 and R53: what InputMux forms, bit by bit, and that only the lane's own registers matter. -/
def Obligations.InputMuxFeedsCounterOrChainedCounter : Prop :=
  ∀ (p : Params) (r : Regs p) (i : Fin p.lmax), p.Wf →
    (r.mode = .ctr → ∀ b, (inputMux r i).getLsbD b = (decide (b < p.m) && r.ctr[i].getLsbD b)) ∧
    (r.mode = .cbc → ∀ b,
      (inputMux r i).getLsbD b = ((decide (b < p.m) && r.ctr[i].getLsbD b) ^^ r.prev[i].getLsbD b)) ∧
    (r.prev[i] = 0 → ∀ a : Regs p, a.mode = .ctr → a.ctr[i] = r.ctr[i] → inputMux r i = inputMux a i) ∧
    (∀ a : Regs p, a.mode = r.mode → a.ctr[i] = r.ctr[i] → a.prev[i] = r.prev[i] → inputMux a i = inputMux r i) ∧
    (p.bw = 64 → r.mode = .cbc → r.ctr[i].toNat = 1 → r.prev[i].toNat = 0x8000000000000000 →
      (inputMux r i).toNat = 0x8000000000000001)

/-- R121: slot(i, j) in both layouts is a bijection from lanes and words onto the buffer indices 0 .. N-1. -/
def Obligations.SlotsFillTheBufferOnce : Prop :=
  ∀ (p : Params) (l : Nat),
    (∀ i j, p.bufLayout = .laneMajor → slot p l i j = i * p.wpb + j) ∧
    (∀ i j, p.bufLayout = .wordMajor → slot p l i j = j * l + i) ∧
    (∀ i j, i < l → j < p.wpb → slot p l i j < l * p.wpb) ∧
    (∀ i j i' j', i < l → j < p.wpb → i' < l → j' < p.wpb → slot p l i j = slot p l i' j' → i = i' ∧ j = j') ∧
    ∀ q, q < l * p.wpb → ∃ i j, i < l ∧ j < p.wpb ∧ slot p l i j = q

/-- R55: key word k is bits [32k+31 : 32k] of KeyVec, and IV chunk c is bits [32c+31 : 32c] of prev. -/
def Obligations.KeyWordsAndChunksAreSlices : Prop :=
  ∀ (p : Params) (r : Regs p),
    (∀ (k : Nat) (hk : k < p.keylen), getBits (keyVec r) (32 * k) 32 = r.key[k]) ∧
    ∀ (lane : Fin p.lmax) (c : Nat) (x : Word), c < p.bw / 32 →
      getBits (writePrevChunk r lane c x).prev[lane] (32 * c) 32 = x

/-- REFILL (41_refill_buffer.md section 1, 42_mode_select.md section 2) where the lanes exist: every block is E of the
key and the input formed before the counters advance, word j of it lies in slot(i, j), the words from N on are not
written, in CBC mode each lane remembers its whole block and in CTR mode none does, the counters are advanced once, and
pos is 0. -/
def Obligations.RefillStoresEveryBlock : Prop :=
  ∀ (p : Params) (r : Regs p), r.lanes.toNat ≤ p.lmax →
    (∀ i : Fin p.lmax, outBlock r i = transformBlock p (keyVec r) (inputMux r i)) ∧
    (∀ (i : Fin p.lmax) (j : Nat), i.val < r.lanes.toNat → j < p.wpb →
      (refill r).buf[slot p r.lanes.toNat i.val j]? = some (blockword p (outBlock r i) j)) ∧
    (∀ (q : Nat) (hq : q < p.nmax), bufLen r ≤ q → (refill r).buf[q] = r.buf[q]) ∧
    (∀ i : Fin p.lmax, (refill r).prev[i] =
      if r.mode = .cbc ∧ i.val < r.lanes.toNat then outBlock r i else r.prev[i]) ∧
    (refill r).ctr = (advance r).ctr ∧ (refill r).pos = 0 ∧
    (refill r).cfgValid = r.cfgValid ∧ (refill r).mode = r.mode ∧ (refill r).lanes = r.lanes ∧
    (refill r).stride = r.stride ∧ (refill r).key = r.key ∧ (refill r).keyCount = r.keyCount

/-- R68: a lane's block depends only on its own counter and prev block, the mode and the key; its store writes only its
own slots and its own prev; so the order of the lanes cannot change the result. -/
def Obligations.LaneOrderCannotMatter : Prop :=
  ∀ (p : Params) (r : Regs p),
    (∀ (a : Regs p) (i : Fin p.lmax), a.mode = r.mode → a.key = r.key → a.ctr[i] = r.ctr[i] → a.prev[i] = r.prev[i] →
      outBlock a i = outBlock r i) ∧
    (∀ (out : Fin p.lmax → BitVec p.bw) (i : Fin p.lmax),
      storeLane out r i = { r with buf := (storeLane out r i).buf, prev := (storeLane out r i).prev } ∧
      (∀ (q : Nat) (hq : q < p.nmax), (∀ j, j < p.wpb → slot p r.lanes.toNat i.val j ≠ q) →
        (storeLane out r i).buf[q] = r.buf[q]) ∧
      ∀ k : Fin p.lmax, k ≠ i → (storeLane out r i).prev[k] = r.prev[k]) ∧
    ∀ order : List (Fin p.lmax), order.Perm (activeLanes r) → refillIn order r = refill r

/-- NEXT_WORD (41_refill_buffer.md section 2) completes with OK in a configured core: with words left it returns the word
at pos and only pos moves; with none left it returns word 0 of the refilled buffer. In an unconfigured core it returns
ERR_NOTCFG and changes nothing. -/
def Obligations.NextWordReturnsTheWordAtTheCursor : Prop :=
  ∀ s : State, s.Inv →
    (s.regs.cfgValid = false → exec .nextWord s = .next { s with response := some ⟨.errNotcfg, 0⟩ }) ∧
    (s.regs.cfgValid = true → s.regs.pos < bufLen s.regs → ∃ h : s.regs.pos < s.params.nmax,
      exec .nextWord s = .next (s.complete { s.regs with pos := s.regs.pos + 1 } s.regs.buf[s.regs.pos])) ∧
    (s.regs.cfgValid = true → s.regs.pos = bufLen s.regs → ∃ h : 0 < s.params.nmax,
      exec .nextWord s = .next (s.complete { refill s.regs with pos := 1 } (refill s.regs).buf[0]))

/-- R127: in every reachable configured state the cursor lies in [0, N], it is N exactly when the next NEXT_WORD refills
first, it is 0 right after a refill and in [1, N] right after a NEXT_WORD. -/
def Obligations.CursorStaysInTheBuffer : Prop :=
  ∀ (p : Params) (s : State), p.Wf → s.Reachable p → s.regs.cfgValid = true →
    s.regs.pos ≤ bufLen s.regs ∧
    (refill s.regs).pos = 0 ∧
    ∃ (r : Regs s.params) (w : BitVec s.params.owb),
      exec .nextWord s = .next (s.complete r w) ∧ 1 ≤ r.pos ∧ r.pos ≤ bufLen r ∧
      (s.regs.pos ≠ bufLen s.regs → r = { s.regs with pos := s.regs.pos + 1 }) ∧
      (s.regs.pos = bufLen s.regs → r = { refill s.regs with pos := 1 })

/-- Every state reached from reset, whatever the host presents at each step (any list of inputs, log entry 6), meets the
invariant: the step lemma StepKeepsTheInvariant with ResetMeetsTheInvariant, carried along a run. -/
def Obligations.ReachableStatesMeetTheInvariant : Prop :=
  ∀ (p : Params) (s : State), p.Wf → s.Reachable p → s.Inv ∧ s.params = p

/-- R126: from an exhausted buffer, t NEXT_WORDs refill exactly on the calls 0, N, 2N, ...: the registers are those after
⌈t / N⌉ refills, but for the cursor. -/
def Obligations.RefillsHappenOncePerBuffer : Prop :=
  ∀ (s : State) (t : Nat), s.Inv → s.regs.Exhausted →
    ∃ resp, runAll (readWords t) s = some { s with
      regs := { refills ((t + bufLen s.regs - 1) / bufLen s.regs) s.regs with
        pos := if t = 0 then bufLen s.regs else (t - 1) % bufLen s.regs + 1 },
      response := resp }

/-- R125: the t-th NEXT_WORD after a successful CREATE returns word t mod N of refill t div N: word j of lane i's block
where slot(i, j) = t mod N. -/
def Obligations.WordsComeInSlotOrder : Prop :=
  ∀ (s0 s : State) (mode l : Nat) (dflt str1 : Bool), s0.Inv → s0.regs.cfgValid = false →
    exec (.create mode dflt str1 l) s0 = .next s → s.regs.cfgValid = true →
    bufLen s.regs = l * s.params.wpb ∧
    ∀ t, ∃ (hq : t % bufLen s.regs < s.params.nmax) (i : Fin s.params.lmax) (j : Nat),
      i.val < l ∧ j < s.params.wpb ∧ slot s.params l i.val j = t % bufLen s.regs ∧
      (runAll (readWords (t + 1)) s).bind observe =
        some (.ok, (blockword s.params (outBlock (refills (t / bufLen s.regs) s.regs) i) j).toNat) ∧
      (refills (t / bufLen s.regs + 1) s.regs).buf[t % bufLen s.regs] =
        blockword s.params (outBlock (refills (t / bufLen s.regs) s.regs) i) j

/-- R128: in CTR mode the block of lane i at refill n is E of the key and its initial counter plus n strides, and nothing
else. -/
def Obligations.CtrBlocksAreClosedForm : Prop :=
  ∀ (p : Params) (r : Regs p) (n : Nat) (i : Fin p.lmax), p.Wf → r.mode = .ctr → i.val < r.lanes.toNat →
    outBlock (refills n r) i =
      transformBlock p (keyVec r) ((BitVec.ofNat p.m (r.ctr[i].toNat + n * r.stride.toNat)).setWidth p.bw)

/-- R157 and R106: two configured cores just constructed that agree on the key, the configuration, and the counters and
(in CBC mode) prev blocks of lanes 0..L-1 return the same words and fill the same buffers, whatever the lanes from L on,
the stale buffer and the CTR-mode prev blocks hold; and those lanes keep their values. -/
def Obligations.StreamDependsOnlyOnTheActiveLanes : Prop :=
  ∀ (p : Params) (a b : Regs p) (respA respB : Option (Response p.owb)) (inA inB : List PortEvent), p.Wf →
    a.ControlInv → b.ControlInv → a.Exhausted → b.Exhausted → a.SameStream b →
    (∀ n, ((traceAll (readWords n) ⟨p, a, respA, inA⟩).map Prod.fst).isSome = true ∧
      (traceAll (readWords n) ⟨p, a, respA, inA⟩).map Prod.fst =
        (traceAll (readWords n) ⟨p, b, respB, inB⟩).map Prod.fst) ∧
    ∀ n, 0 < n →
      (∀ (q : Nat) (hq : q < p.nmax), q < bufLen a → (refills n a).buf[q] = (refills n b).buf[q]) ∧
      ∀ i : Fin p.lmax, a.lanes.toNat ≤ i.val →
        (refills n a).ctr[i] = a.ctr[i] ∧ (refills n a).prev[i] = a.prev[i]

/-- R158: where E(KeyVec, ·) is injective, a different prev block of a chained lane changes that lane's every later
block. -/
def Obligations.ChainedDifferencesPropagate : Prop :=
  ∀ (p : Params) (a b : Regs p) (i : Fin p.lmax), a.mode = .cbc → b.mode = .cbc → a.lanes = b.lanes →
    a.stride = b.stride → a.key = b.key → a.ctr[i] = b.ctr[i] → i.val < a.lanes.toNat →
    Function.Injective (transformBlock p (keyVec a)) → a.prev[i] ≠ b.prev[i] →
    ∀ n, inputMux (refills n a) i ≠ inputMux (refills n b) i ∧ outBlock (refills n a) i ≠ outBlock (refills n b) i

/-- R154: after any commands since reset none of which is an IV_WRITE to lane i, an unconfigured core holds an all-zero
previous output for it, so that the first refill after CREATE feeds the lane its plain counter; and CREATE leaves every
prev block as it stands. -/
def Obligations.FirstChainedRefillUsesTheInitializationValue : Prop :=
  (∀ (s t : State) (is : List Instr) (i : Fin t.params.lmax), s.regs = Regs.reset s.params →
    (∀ k din, Instr.ivWrite i.val k din ∉ is) → runAll is s = some t → t.regs.cfgValid = false →
    t.regs.prev[i] = 0 ∧ ∀ (mode l : Nat) (dflt str1 : Bool) (r : Regs t.params),
      exec (.create mode dflt str1 l) t = .next (t.complete r 0) → inputMux r i = ctrBlock t.params r.ctr[i]) ∧
  ∀ (s : State) (mode l : Nat) (dflt str1 : Bool) (r : Regs s.params),
    s.regs.cfgValid = false → exec (.create mode dflt str1 l) s = .next (s.complete r 0) → r.prev = s.regs.prev
end

