-- ==== Sys2Proof/Laws/Bits.lean ====
section
/-! SUPPORT. Bit by bit, what the slices of Operands.lean read and write; a slice read back after a write. -/

namespace Sys2Proof.Machine

/-- Bit `b` of a slice is bit `lo + b` of the value (R11). -/
@[simp] theorem getLsbD_getBits {n : Nat} (v : BitVec n) (lo len b : Nat) :
    (getBits v lo len).getLsbD b = (decide (b < len) && v.getLsbD (lo + b)) := by
  simp [getBits]

/-- The bits of the slice are the new ones, the others are as before. -/
@[simp] theorem getLsbD_putBits {n len : Nat} (v : BitVec n) (lo : Nat) (x : BitVec len) (b : Nat) :
    (putBits v lo x).getLsbD b =
      (decide (b < n) && if lo ≤ b ∧ b < lo + len then x.getLsbD (b - lo) else v.getLsbD b) := by
  unfold putBits
  simp only [BitVec.getLsbD_or, BitVec.getLsbD_and, BitVec.getLsbD_not, BitVec.getLsbD_shiftLeft,
    BitVec.getLsbD_setWidth, BitVec.getLsbD_allOnes]
  by_cases hn : b < n
  · by_cases hlo : lo ≤ b
    · have h1 : decide (b < lo) = false := by simp [hlo]
      have h3 : decide (b - lo < n) = true := by simp; omega
      by_cases hhi : b < lo + len
      · have h2 : decide (b - lo < len) = true := by simp; omega
        simp only [hn, h1, h2, h3, hlo, hhi]; simp
      · have h2 : decide (b - lo < len) = false := by simp; omega
        have h4 : x.getLsbD (b - lo) = false := BitVec.getLsbD_of_ge _ _ (by omega)
        simp only [hn, h1, h2, h4, hhi]; simp
    · have h1 : decide (b < lo) = true := by simp; omega
      simp only [hn, h1, hlo]; simp
  · simp [hn]

/-- Two values are equal if their bits are. -/
theorem eq_of_getLsbD {n : Nat} {a b : BitVec n} (h : ∀ i, i < n → a.getLsbD i = b.getLsbD i) : a = b :=
  BitVec.eq_of_getLsbD_eq h

/-- The slice just written reads as what was written, where it lies inside the value. -/
theorem getBits_putBits_same {n len : Nat} (v : BitVec n) (lo : Nat) (x : BitVec len) (h : lo + len ≤ n) :
    getBits (putBits v lo x) lo len = x := by
  apply eq_of_getLsbD
  intro i hi
  rw [getLsbD_getBits, getLsbD_putBits, if_pos ⟨by omega, by omega⟩, Nat.add_sub_cancel_left,
    decide_eq_true hi, decide_eq_true (by omega : lo + i < n), Bool.true_and, Bool.true_and]

/-- A slice that does not meet the one written reads as before. -/
theorem getBits_putBits_disjoint {n len : Nat} (v : BitVec n) (lo lo' len' : Nat) (x : BitVec len)
    (h : lo' + len' ≤ lo ∨ lo + len ≤ lo') : getBits (putBits v lo x) lo' len' = getBits v lo' len' := by
  apply eq_of_getLsbD
  intro i hi
  rw [getLsbD_getBits, getLsbD_getBits, getLsbD_putBits, if_neg (by omega)]
  by_cases h2 : lo' + i < n
  · rw [decide_eq_true h2, Bool.true_and]
  · rw [BitVec.getLsbD_of_ge v _ (by omega), Bool.and_false]

/-- Writing a slice twice leaves the second value. -/
theorem putBits_putBits {n len : Nat} (v : BitVec n) (lo : Nat) (x y : BitVec len) :
    putBits (putBits v lo x) lo y = putBits v lo y := by
  apply eq_of_getLsbD
  intro i hi
  rw [getLsbD_putBits, getLsbD_putBits, getLsbD_putBits]
  by_cases h : lo ≤ i ∧ i < lo + len
  · rw [if_pos h, if_pos h]
  · rw [if_neg h, if_neg h, if_neg h, decide_eq_true hi, Bool.true_and]

/-- A word of a counter just written reads as what was written. -/
theorem ctrWord_setCtrWord_same {n cwb : Nat} (c : BitVec n) (k : Nat) (x : BitVec cwb) (h : cwb * (k + 1) ≤ n) :
    ctrWord cwb (setCtrWord c k x) k = x :=
  getBits_putBits_same _ _ _ (by rw [Nat.mul_succ] at h; exact h)

/-- The other words of a counter are left alone. -/
theorem ctrWord_setCtrWord_other {n cwb : Nat} (c : BitVec n) (k k' : Nat) (x : BitVec cwb) (h : k' ≠ k) :
    ctrWord cwb (setCtrWord c k x) k' = ctrWord cwb c k' := by
  apply getBits_putBits_disjoint
  rcases Nat.lt_or_gt_of_ne h with h | h
  · left
    calc cwb * k' + cwb = cwb * (k' + 1) := (Nat.mul_succ _ _).symm
      _ ≤ cwb * k := Nat.mul_le_mul_left _ h
  · right
    calc cwb * k + cwb = cwb * (k + 1) := (Nat.mul_succ _ _).symm
      _ ≤ cwb * k' := Nat.mul_le_mul_left _ h

/-- The three parts of a number: below `lo`, the `len` bits from `lo` on, and the rest. -/
theorem split_at_slice (y lo len : Nat) :
    y = y % 2 ^ lo + 2 ^ lo * (y / 2 ^ lo % 2 ^ len) + 2 ^ (lo + len) * (y / 2 ^ (lo + len)) := by
  have h1 := Nat.mod_add_div y (2 ^ lo)
  have h2 := Nat.mod_add_div (y / 2 ^ lo) (2 ^ len)
  rw [Nat.div_div_eq_div_mul, ← Nat.pow_add] at h2
  calc y = y % 2 ^ lo + 2 ^ lo * (y / 2 ^ lo) := h1.symm
    _ = y % 2 ^ lo + 2 ^ lo * (y / 2 ^ lo % 2 ^ len + 2 ^ len * (y / 2 ^ (lo + len))) := by rw [h2]
    _ = _ := by rw [Nat.pow_add]; ring

/-- A slice as a number (R11). -/
theorem toNat_getBits {n : Nat} (v : BitVec n) (lo len : Nat) :
    (getBits v lo len).toNat = v.toNat / 2 ^ lo % 2 ^ len := by
  simp [getBits, BitVec.extractLsb'_toNat, Nat.shiftRight_eq_div_pow]

/-- Writing a slice as a number: the old slice goes, the new one comes. -/
theorem toNat_putBits {n len : Nat} (v : BitVec n) (lo : Nat) (x : BitVec len) (h : lo + len ≤ n) :
    (putBits v lo x).toNat + 2 ^ lo * (getBits v lo len).toNat = v.toNat + 2 ^ lo * x.toNat := by
  have hlow : (putBits v lo x).toNat % 2 ^ lo = v.toNat % 2 ^ lo := by
    apply Nat.eq_of_testBit_eq
    intro i
    rw [Nat.testBit_mod_two_pow, Nat.testBit_mod_two_pow, BitVec.testBit_toNat, BitVec.testBit_toNat, getLsbD_putBits]
    by_cases hi : i < lo
    · rw [if_neg (by omega), decide_eq_true (by omega : i < n), Bool.true_and]
    · simp [hi]
  have hmid : (putBits v lo x).toNat / 2 ^ lo % 2 ^ len = x.toNat := by
    rw [← toNat_getBits, getBits_putBits_same v lo x h]
  have hhigh : (putBits v lo x).toNat / 2 ^ (lo + len) = v.toNat / 2 ^ (lo + len) := by
    apply Nat.eq_of_testBit_eq
    intro i
    rw [Nat.testBit_div_two_pow, Nat.testBit_div_two_pow, BitVec.testBit_toNat, BitVec.testBit_toNat,
      getLsbD_putBits, if_neg (by omega)]
    by_cases hi : i + (lo + len) < n
    · rw [decide_eq_true hi, Bool.true_and]
    · rw [BitVec.getLsbD_of_ge v _ (by omega), Bool.and_false]
  rw [toNat_getBits]
  have h1 := split_at_slice (putBits v lo x).toNat lo len
  have h2 := split_at_slice v.toNat lo len
  rw [hlow, hmid, hhigh] at h1
  rw [h1]
  conv_rhs => rw [h2]
  ring

end Sys2Proof.Machine
end

