-- ==== Sys2Proof/Laws/Decode.lean ====
section
/-! SUPPORT. Fields of a command word as numbers, what each mask of the opcode table tests, and the fields of an encoded
word. -/

namespace Sys2Proof

/-- A field as a number (R11). -/
theorem field_eq (v : Word) (lo len : Nat) : field v lo len = v.toNat / 2 ^ lo % 2 ^ len := by
  simp [field, BitVec.extractLsb'_toNat, Nat.shiftRight_eq_div_pow]

/-- A flag bit as a number. -/
theorem flagBit_eq (v : Word) (i : Nat) : flagBit v i = decide (v.toNat / 2 ^ i % 2 = 1) := by
  simp [flagBit, ← BitVec.testBit_toNat, Nat.testBit, Nat.shiftRight_eq_div_pow, Nat.and_comm 1]
  rfl

theorem op_lt (c : Word) : field c 0 4 < 16 := by rw [field_eq]; omega

/-- A mask whose ones are the bits below `lo` and from `hi` on keeps those bits. -/
theorem toNat_and_mask (c : Word) (lo hi : Nat) (m : Word)
    (hm : ∀ i, i < 32 → m.getLsbD i = (decide (i < lo) || decide (hi ≤ i))) (h : lo ≤ hi) (h2 : hi ≤ 32) :
    (c &&& m).toNat = c.toNat % 2 ^ lo + 2 ^ hi * (c.toNat / 2 ^ hi) := by
  apply Nat.eq_of_testBit_eq
  intro i
  have hlt : c.toNat % 2 ^ lo < 2 ^ hi :=
    Nat.lt_of_lt_of_le (Nat.mod_lt _ (Nat.two_pow_pos _)) (Nat.pow_le_pow_right (by decide) h)
  rw [Nat.add_comm, Nat.testBit_two_pow_mul_add _ hlt, Nat.testBit_mod_two_pow, Nat.testBit_div_two_pow,
    BitVec.testBit_toNat, BitVec.testBit_toNat, BitVec.getLsbD_and]
  by_cases h32 : i < 32
  · rw [hm i h32]
    by_cases hi' : i < hi
    · rw [if_pos hi']; by_cases hl : i < lo <;> simp [hl, hi']
    · rw [if_neg hi']
      simp [show hi ≤ i by omega, show ¬ i < lo by omega, show i - hi + hi = i by omega, ← BitVec.testBit_toNat]
  · rw [if_neg (by omega), BitVec.getLsbD_of_ge c i (by omega), BitVec.testBit_toNat,
      BitVec.getLsbD_of_ge c _ (by omega)]
    rfl

/-- The mask of NOP, KEY_WRITE, NEXT_WORD and DESTROY (R74) tests every field. -/
theorem and_fullMask (c a : Word) (ha : a.toNat < 16) : c &&& 0xFFFFFFFF = a ↔
    field c 0 4 = a.toNat ∧ field c 4 4 = 0 ∧ field c 8 8 = 0 ∧ field c 16 8 = 0 ∧ field c 24 8 = 0 := by
  rw [show (0xFFFFFFFF : Word) = BitVec.allOnes 32 by decide, BitVec.and_allOnes, ← BitVec.toNat_inj]
  simp only [field_eq]
  have := c.isLt
  omega

/-- The mask of CTR_WRITE and IV_WRITE (R74) leaves A and B free. -/
theorem and_indexMask (c a : Word) (ha : a.toNat < 16) : c &&& 0xFF0000FF = a ↔
    field c 0 4 = a.toNat ∧ field c 4 4 = 0 ∧ field c 24 8 = 0 := by
  rw [← BitVec.toNat_inj, toNat_and_mask c 8 24 _ (by decide) (by decide) (by decide)]
  simp only [field_eq]
  have := c.isLt
  omega

/-- The mask of CREATE (R74) leaves MOD and A free. -/
theorem and_createMask (c a : Word) (ha : a.toNat < 16) : c &&& 0xFFFF000F = a ↔
    field c 0 4 = a.toNat ∧ field c 16 8 = 0 ∧ field c 24 8 = 0 := by
  rw [← BitVec.toNat_inj, toNat_and_mask c 4 16 _ (by decide) (by decide) (by decide)]
  simp only [field_eq]
  have := c.isLt
  omega

/-- `decode` with the opcode known. -/
theorem decode_of_op (c : Command) (n : Nat) (h : field c.cmd 0 4 = n) : decode c = match rowOf n with
    | none => .illegal .reservedOpcode
    | some row => if c.cmd &&& row.mask = row.pattern then operandsOf n c else .illegal .mustBeZero := by
  subst h; rfl

section Encoded
variable (op mod a b : Nat)

theorem commandWord_toNat :
    (commandWord op mod a b).toNat = op % 16 + 16 * (mod % 16) + 256 * (a % 256) + 65536 * (b % 256) := by
  unfold commandWord; rw [BitVec.toNat_ofNat]; omega
theorem commandWord_op : field (commandWord op mod a b) 0 4 = op % 16 := by rw [field_eq, commandWord_toNat]; omega
theorem commandWord_mod : field (commandWord op mod a b) 4 4 = mod % 16 := by rw [field_eq, commandWord_toNat]; omega
theorem commandWord_a : field (commandWord op mod a b) 8 8 = a % 256 := by rw [field_eq, commandWord_toNat]; omega
theorem commandWord_b : field (commandWord op mod a b) 16 8 = b % 256 := by rw [field_eq, commandWord_toNat]; omega
theorem commandWord_rsv : field (commandWord op mod a b) 24 8 = 0 := by rw [field_eq, commandWord_toNat]; omega

end Encoded

end Sys2Proof
end

