-- ==== Sys2Proof/Laws/State.lean ====
section
/-! SUPPORT. One lemma per field per update of the state and of the registers, so that no later proof unfolds a record
update. -/

namespace Sys2Proof.Machine

section StateUpdates
variable (s : State) (st : Status) (c : Command)

@[simp] theorem State.raise_params : (s.raise st).params = s.params := rfl
@[simp] theorem State.raise_regs : (s.raise st).regs = s.regs := rfl
@[simp] theorem State.raise_response : (s.raise st).response = some ⟨st, 0⟩ := rfl
@[simp] theorem State.raise_inputs : (s.raise st).inputs = s.inputs := rfl

@[simp] theorem State.complete_params (r : Regs s.params) (d : BitVec s.params.owb) :
    (s.complete r d).params = s.params := rfl
@[simp] theorem State.complete_regs (r : Regs s.params) (d : BitVec s.params.owb) : (s.complete r d).regs = r := rfl
@[simp] theorem State.complete_response (r : Regs s.params) (d : BitVec s.params.owb) :
    (s.complete r d).response = some ⟨.ok, d⟩ := rfl
@[simp] theorem State.complete_inputs (r : Regs s.params) (d : BitVec s.params.owb) :
    (s.complete r d).inputs = s.inputs := rfl

@[simp] theorem State.hold_params : s.hold.params = s.params := rfl
@[simp] theorem State.hold_regs : s.hold.regs = s.regs := rfl
@[simp] theorem State.hold_response : s.hold.response = none := rfl
@[simp] theorem State.hold_inputs : s.hold.inputs = s.inputs := rfl

@[simp] theorem State.hardReset_params : s.hardReset.params = s.params := rfl
@[simp] theorem State.hardReset_regs : s.hardReset.regs = Regs.reset s.params := rfl
@[simp] theorem State.hardReset_response : s.hardReset.response = none := rfl
@[simp] theorem State.hardReset_inputs : s.hardReset.inputs = s.inputs := rfl

@[simp] theorem present_params : (present s c).params = s.params := rfl
@[simp] theorem present_regs : (present s c).regs = s.regs := rfl
@[simp] theorem present_response : (present s c).response = s.response := rfl
@[simp] theorem present_inputs : (present s c).inputs = .command c :: s.inputs := rfl

@[simp] theorem State.resetOf_params (p : Params) : (State.resetOf p).params = p := rfl
@[simp] theorem State.resetOf_regs (p : Params) : (State.resetOf p).regs = Regs.reset p := rfl
@[simp] theorem State.resetOf_response (p : Params) : (State.resetOf p).response = none := rfl
@[simp] theorem State.resetOf_inputs (p : Params) : (State.resetOf p).inputs = [] := rfl

end StateUpdates

section Reset
variable (p : Params)

@[simp] theorem Regs.reset_cfgValid : (Regs.reset p).cfgValid = false := rfl
@[simp] theorem Regs.reset_mode : (Regs.reset p).mode = .ctr := rfl
@[simp] theorem Regs.reset_lanes : (Regs.reset p).lanes = 0 := rfl
@[simp] theorem Regs.reset_stride : (Regs.reset p).stride = 0 := rfl
@[simp] theorem Regs.reset_pos : (Regs.reset p).pos = 0 := rfl
@[simp] theorem Regs.reset_keyCount : (Regs.reset p).keyCount = 0 := rfl
@[simp] theorem Regs.reset_ctr (i : Nat) (h : i < p.lmax) : (Regs.reset p).ctr[i] = 0 := by simp [Regs.reset]
@[simp] theorem Regs.reset_prev (i : Nat) (h : i < p.lmax) : (Regs.reset p).prev[i] = 0 := by simp [Regs.reset]
@[simp] theorem Regs.reset_buf (j : Nat) (h : j < p.nmax) : (Regs.reset p).buf[j] = 0 := by simp [Regs.reset]
@[simp] theorem Regs.reset_key (k : Nat) (h : k < p.keylen) : (Regs.reset p).key[k] = 0 := by simp [Regs.reset]

end Reset

section Writes
variable {p : Params} (r : Regs p)

@[simp] theorem bufWrite_cfgValid (j : Nat) (v : BitVec p.owb) : (bufWrite r j v).cfgValid = r.cfgValid := rfl
@[simp] theorem bufWrite_mode (j : Nat) (v : BitVec p.owb) : (bufWrite r j v).mode = r.mode := rfl
@[simp] theorem bufWrite_lanes (j : Nat) (v : BitVec p.owb) : (bufWrite r j v).lanes = r.lanes := rfl
@[simp] theorem bufWrite_stride (j : Nat) (v : BitVec p.owb) : (bufWrite r j v).stride = r.stride := rfl
@[simp] theorem bufWrite_ctr (j : Nat) (v : BitVec p.owb) : (bufWrite r j v).ctr = r.ctr := rfl
@[simp] theorem bufWrite_prev (j : Nat) (v : BitVec p.owb) : (bufWrite r j v).prev = r.prev := rfl
@[simp] theorem bufWrite_pos (j : Nat) (v : BitVec p.owb) : (bufWrite r j v).pos = r.pos := rfl
@[simp] theorem bufWrite_key (j : Nat) (v : BitVec p.owb) : (bufWrite r j v).key = r.key := rfl
@[simp] theorem bufWrite_keyCount (j : Nat) (v : BitVec p.owb) : (bufWrite r j v).keyCount = r.keyCount := rfl

@[simp] theorem writeCtrWord_cfgValid (i : Fin p.lmax) (k : Nat) (x : BitVec p.cwb) :
    (writeCtrWord r i k x).cfgValid = r.cfgValid := rfl
@[simp] theorem writeCtrWord_keyCount (i : Fin p.lmax) (k : Nat) (x : BitVec p.cwb) :
    (writeCtrWord r i k x).keyCount = r.keyCount := rfl
@[simp] theorem writeCtrWord_prev (i : Fin p.lmax) (k : Nat) (x : BitVec p.cwb) :
    (writeCtrWord r i k x).prev = r.prev := rfl
@[simp] theorem writeCtrWord_key (i : Fin p.lmax) (k : Nat) (x : BitVec p.cwb) :
    (writeCtrWord r i k x).key = r.key := rfl

@[simp] theorem writePrevChunk_cfgValid (i : Fin p.lmax) (c : Nat) (x : Word) :
    (writePrevChunk r i c x).cfgValid = r.cfgValid := rfl
@[simp] theorem writePrevChunk_keyCount (i : Fin p.lmax) (c : Nat) (x : Word) :
    (writePrevChunk r i c x).keyCount = r.keyCount := rfl
@[simp] theorem writePrevChunk_ctr (i : Fin p.lmax) (c : Nat) (x : Word) :
    (writePrevChunk r i c x).ctr = r.ctr := rfl
@[simp] theorem writePrevChunk_key (i : Fin p.lmax) (c : Nat) (x : Word) :
    (writePrevChunk r i c x).key = r.key := rfl

@[simp] theorem advance_cfgValid : (advance r).cfgValid = r.cfgValid := rfl
@[simp] theorem advance_mode : (advance r).mode = r.mode := rfl
@[simp] theorem advance_lanes : (advance r).lanes = r.lanes := rfl
@[simp] theorem advance_stride : (advance r).stride = r.stride := rfl
@[simp] theorem advance_prev : (advance r).prev = r.prev := rfl
@[simp] theorem advance_buf : (advance r).buf = r.buf := rfl
@[simp] theorem advance_pos : (advance r).pos = r.pos := rfl
@[simp] theorem advance_key : (advance r).key = r.key := rfl
@[simp] theorem advance_keyCount : (advance r).keyCount = r.keyCount := rfl

/-- What ADVANCE leaves in lane `i` (R103). -/
theorem advance_ctr (i : Nat) (h : i < p.lmax) : (advance r).ctr[i] =
    if i < r.lanes.toNat then advanceCounter p r.stride r.ctr[i] else r.ctr[i] := by
  simp [advance]

/-- What DEFAULT_LAYOUT leaves in lane `i` (R102). -/
theorem defaultLayout_ctr (l i : Nat) (h : i < p.lmax) : (defaultLayout l r).ctr[i] =
    if i < l then BitVec.ofNat p.m i else r.ctr[i] := by
  simp [defaultLayout]

end Writes

section Create
variable {p : Params} (md : Mode) (dflt str1 : Bool) (l : Nat) (r : Regs p)

@[simp] theorem configure_cfgValid : (configure md dflt str1 l r).cfgValid = true := rfl
@[simp] theorem configure_mode : (configure md dflt str1 l r).mode = md := rfl
@[simp] theorem configure_lanes : (configure md dflt str1 l r).lanes = BitVec.ofNat 8 l := rfl
@[simp] theorem configure_stride :
    (configure md dflt str1 l r).stride = if str1 then 1 else BitVec.ofNat 8 l := rfl
@[simp] theorem configure_pos : (configure md dflt str1 l r).pos = l * p.wpb := rfl
@[simp] theorem configure_ctr :
    (configure md dflt str1 l r).ctr = if dflt then (defaultLayout l r).ctr else r.ctr := by
  cases dflt <;> rfl
@[simp] theorem configure_prev : (configure md dflt str1 l r).prev = r.prev := by cases dflt <;> rfl
@[simp] theorem configure_buf : (configure md dflt str1 l r).buf = r.buf := by cases dflt <;> rfl
@[simp] theorem configure_key : (configure md dflt str1 l r).key = r.key := by cases dflt <;> rfl
@[simp] theorem configure_keyCount : (configure md dflt str1 l r).keyCount = r.keyCount := by cases dflt <;> rfl

end Create

section Lanes
variable {p : Params} (r : Regs p) (i : Fin p.lmax) (out : BitVec p.bw)

@[simp] theorem chainUpdate_cfgValid : (chainUpdate r i out).cfgValid = r.cfgValid := by
  unfold chainUpdate; split <;> rfl
@[simp] theorem chainUpdate_mode : (chainUpdate r i out).mode = r.mode := by
  unfold chainUpdate; split <;> rfl
@[simp] theorem chainUpdate_lanes : (chainUpdate r i out).lanes = r.lanes := by
  unfold chainUpdate; split <;> rfl
@[simp] theorem chainUpdate_stride : (chainUpdate r i out).stride = r.stride := by
  unfold chainUpdate; split <;> rfl
@[simp] theorem chainUpdate_ctr : (chainUpdate r i out).ctr = r.ctr := by
  unfold chainUpdate; split <;> rfl
@[simp] theorem chainUpdate_buf : (chainUpdate r i out).buf = r.buf := by
  unfold chainUpdate; split <;> rfl
@[simp] theorem chainUpdate_pos : (chainUpdate r i out).pos = r.pos := by
  unfold chainUpdate; split <;> rfl
@[simp] theorem chainUpdate_key : (chainUpdate r i out).key = r.key := by
  unfold chainUpdate; split <;> rfl
@[simp] theorem chainUpdate_keyCount : (chainUpdate r i out).keyCount = r.keyCount := by
  unfold chainUpdate; split <;> rfl

/-- What ChainUpdate leaves in lane `k` (R152). -/
theorem chainUpdate_prev (k : Fin p.lmax) : (chainUpdate r i out).prev[k] =
    if r.mode = .cbc ∧ k = i then out else r.prev[k] := by
  unfold chainUpdate
  split <;> rename_i h
  · simp [h]
  · simp only [Fin.getElem_fin, Vector.getElem_set, h, true_and, Fin.ext_iff, eq_comm (a := k.val)]

end Lanes

end Sys2Proof.Machine
end

