-- ==== Sys2Proof/Laws/Refill.lean ====
section
/-! SUPPORT. What storing a lane's block writes, what a run of such stores leaves, and a refill field by field. -/

namespace Sys2Proof.Machine

variable {p : Params}

/-- Two register files are equal if their fields are. -/
theorem Regs.ext_fields {a b : Regs p} (h0 : a.cfgValid = b.cfgValid) (h1 : a.mode = b.mode) (h2 : a.lanes = b.lanes)
    (h3 : a.stride = b.stride) (h4 : a.ctr = b.ctr) (h5 : a.prev = b.prev) (h6 : a.buf = b.buf) (h7 : a.pos = b.pos)
    (h8 : a.key = b.key) (h9 : a.keyCount = b.keyCount) : a = b := by
  cases a; cases b; simp_all

/-- Key vectors are equal if the keys are. -/
theorem keyVec_congr {a b : Regs p} (h : a.key = b.key) : keyVec a = keyVec b := by unfold keyVec; rw [h]

section Writes
variable (f : Nat → Nat) (g : Nat → BitVec p.owb)

/-- A run of buffer writes changes only the buffer. -/
theorem bufWrites_eq (js : List Nat) (r : Regs p) :
    js.foldl (fun a j => bufWrite a (f j) (g j)) r =
      { r with buf := (js.foldl (fun a j => bufWrite a (f j) (g j)) r).buf } := by
  induction js generalizing r with
  | nil => rfl
  | cons j js ih => rw [List.foldl_cons, ih]; rfl

/-- A word that no write of the run names is as before. -/
theorem bufWrites_other (js : List Nat) (r : Regs p) (q : Nat) (h : ∀ j ∈ js, f j ≠ q) :
    (js.foldl (fun a j => bufWrite a (f j) (g j)) r).buf[q]? = r.buf[q]? := by
  induction js generalizing r with
  | nil => rfl
  | cons j js ih =>
    rw [List.foldl_cons, ih _ (fun j hj => h j (List.mem_cons_of_mem _ hj))]
    simp [bufWrite, h j List.mem_cons_self]

/-- A word that exactly one write of the run names holds what that write gave. -/
theorem bufWrites_at (js : List Nat) (r : Regs p) (j : Nat) (hj : j ∈ js) (hn : f j < p.nmax)
    (inj : ∀ k ∈ js, f k = f j → k = j) :
    (js.foldl (fun a j => bufWrite a (f j) (g j)) r).buf[f j]? = some (g j) := by
  induction js generalizing r with
  | nil => cases hj
  | cons k js ih =>
    rw [List.foldl_cons]
    by_cases hjs : j ∈ js
    · exact ih _ hjs fun k hk => inj k (List.mem_cons_of_mem _ hk)
    · obtain rfl : j = k := (List.mem_cons.1 hj).resolve_right hjs
      rw [bufWrites_other]
      · simp [bufWrite, hn]
      · exact fun k hk e => hjs (inj k (List.mem_cons_of_mem _ hk) e ▸ hk)

end Writes

section Lane
variable (r : Regs p) (i : Fin p.lmax)

/-- Storing a block changes only the buffer. -/
theorem storeBlock_eq (out : BitVec p.bw) : storeBlock r i out = { r with buf := (storeBlock r i out).buf } :=
  bufWrites_eq _ _ _ _

/-- Storing a block leaves every word outside its own slots (R68). -/
theorem storeBlock_other (out : BitVec p.bw) (q : Nat)
    (h : ∀ j, j < p.wpb → slot p r.lanes.toNat i.val j ≠ q) : (storeBlock r i out).buf[q]? = r.buf[q]? :=
  bufWrites_other _ _ _ _ _ fun j hj => h j (List.mem_range.1 hj)

/-- A stored word, where its slot exists and no other word of the block has it. -/
theorem storeBlock_at (out : BitVec p.bw) (j : Nat) (hj : j < p.wpb) (hn : slot p r.lanes.toNat i.val j < p.nmax)
    (inj : ∀ k, k < p.wpb → slot p r.lanes.toNat i.val k = slot p r.lanes.toNat i.val j → k = j) :
    (storeBlock r i out).buf[slot p r.lanes.toNat i.val j]? = some (blockword p out j) :=
  bufWrites_at (fun j => slot p r.lanes.toNat i.val j) (fun j => blockword p out j) _ r j (List.mem_range.2 hj) hn
    fun k hk => inj k (List.mem_range.1 hk)

variable (out : Fin p.lmax → BitVec p.bw)

/-- A lane's store changes only the buffer and the prev blocks. -/
theorem storeLane_eq :
    storeLane out r i = { r with buf := (storeLane out r i).buf, prev := (storeLane out r i).prev } := by
  unfold storeLane chainUpdate
  rw [storeBlock_eq]
  split <;> rfl

@[simp] theorem storeLane_mode : (storeLane out r i).mode = r.mode := by rw [storeLane_eq]
@[simp] theorem storeLane_lanes : (storeLane out r i).lanes = r.lanes := by rw [storeLane_eq]
@[simp] theorem storeLane_buf : (storeLane out r i).buf = (storeBlock r i (out i)).buf := by simp [storeLane]

/-- A lane's store changes only its own prev block, and only in CBC mode (R152). -/
theorem storeLane_prev (k : Fin p.lmax) :
    (storeLane out r i).prev[k] = if r.mode = .cbc ∧ k = i then out i else r.prev[k] := by
  rw [storeLane, chainUpdate_prev, storeBlock_eq]

end Lane

section Stores
variable (out : Fin p.lmax → BitVec p.bw) (order : List (Fin p.lmax)) (r : Regs p)

/-- A run of lane stores changes only the buffer and the prev blocks. -/
theorem storeLanes_eq : order.foldl (storeLane out) r =
    { r with buf := (order.foldl (storeLane out) r).buf, prev := (order.foldl (storeLane out) r).prev } := by
  induction order generalizing r with
  | nil => rfl
  | cons i o ih => rw [List.foldl_cons, ih, storeLane_eq]

/-- In CBC mode each lane of the run remembers its block, and no other does. -/
theorem storeLanes_prev (k : Fin p.lmax) : (order.foldl (storeLane out) r).prev[k] =
    if r.mode = .cbc ∧ k ∈ order then out k else r.prev[k] := by
  induction order generalizing r with
  | nil => simp
  | cons i o ih =>
    rw [List.foldl_cons, ih, storeLane_prev, storeLane_mode]
    by_cases hm : r.mode = .cbc <;> by_cases hk : k = i <;> by_cases ho : k ∈ o <;> simp [hm, hk, ho]

/-- A word in no slot of the run's lanes is as before. -/
theorem storeLanes_buf_other (q : Nat) (h : ∀ i ∈ order, ∀ j, j < p.wpb → slot p r.lanes.toNat i.val j ≠ q) :
    (order.foldl (storeLane out) r).buf[q]? = r.buf[q]? := by
  induction order generalizing r with
  | nil => rfl
  | cons i o ih =>
    rw [List.foldl_cons, ih, storeLane_buf, storeBlock_other]
    · exact h i List.mem_cons_self
    · rw [storeLane_lanes]; exact fun k hk => h k (List.mem_cons_of_mem _ hk)

end Stores

section Refill
variable (r : Regs p)

theorem mem_activeLanes (i : Fin p.lmax) : i ∈ activeLanes r ↔ i.val < r.lanes.toNat := by simp [activeLanes]

/-- All that a refill changes: the buffer and the prev blocks by its stores, the counters by ADVANCE, pos (R120). -/
theorem refillIn_eq (order : List (Fin p.lmax)) : refillIn order r =
    { r with
      buf := (order.foldl (storeLane (outBlock r)) r).buf, prev := (order.foldl (storeLane (outBlock r)) r).prev,
      ctr := (advance r).ctr, pos := 0 } := by
  unfold refillIn
  rw [storeLanes_eq]; simp [advance]

@[simp] theorem refill_cfgValid : (refill r).cfgValid = r.cfgValid := by simp only [refill, refillIn_eq]
@[simp] theorem refill_mode : (refill r).mode = r.mode := by simp only [refill, refillIn_eq]
@[simp] theorem refill_lanes : (refill r).lanes = r.lanes := by simp only [refill, refillIn_eq]
@[simp] theorem refill_stride : (refill r).stride = r.stride := by simp only [refill, refillIn_eq]
@[simp] theorem refill_key : (refill r).key = r.key := by simp only [refill, refillIn_eq]
@[simp] theorem refill_keyCount : (refill r).keyCount = r.keyCount := by simp only [refill, refillIn_eq]
@[simp] theorem refill_pos : (refill r).pos = 0 := by simp only [refill, refillIn_eq]
@[simp] theorem refill_ctr : (refill r).ctr = (advance r).ctr := by simp only [refill, refillIn_eq]

/-- The prev blocks after a refill. -/
theorem refill_prev (i : Fin p.lmax) : (refill r).prev[i] =
    if r.mode = .cbc ∧ i.val < r.lanes.toNat then outBlock r i else r.prev[i] := by
  simp only [refill, refillIn_eq]
  rw [storeLanes_prev]
  simp [mem_activeLanes]

@[simp] theorem refillIfExhausted_cfgValid : (refillIfExhausted r).cfgValid = r.cfgValid := by
  unfold refillIfExhausted; split <;> simp
@[simp] theorem refillIfExhausted_mode : (refillIfExhausted r).mode = r.mode := by
  unfold refillIfExhausted; split <;> simp
@[simp] theorem refillIfExhausted_lanes : (refillIfExhausted r).lanes = r.lanes := by
  unfold refillIfExhausted; split <;> simp
@[simp] theorem refillIfExhausted_stride : (refillIfExhausted r).stride = r.stride := by
  unfold refillIfExhausted; split <;> simp
@[simp] theorem refillIfExhausted_key : (refillIfExhausted r).key = r.key := by
  unfold refillIfExhausted; split <;> simp
@[simp] theorem refillIfExhausted_keyCount : (refillIfExhausted r).keyCount = r.keyCount := by
  unfold refillIfExhausted; split <;> simp

end Refill

end Sys2Proof.Machine
end

