-- ==== Sys2Proof/Laws/Exec.lean ====
section
/-! SUPPORT. What each command answers, once, and all that an executed command and a step can do: the lemmas a later
proof cites instead of unfolding `exec` and `step`. -/

namespace Sys2Proof.Machine

@[simp] theorem appendKey_cfgValid {p : Params} (r : Regs p) (d : Word) : (appendKey r d).cfgValid = r.cfgValid := by
  unfold appendKey; split <;> rfl
@[simp] theorem appendKey_mode {p : Params} (r : Regs p) (d : Word) : (appendKey r d).mode = r.mode := by
  unfold appendKey; split <;> rfl
@[simp] theorem appendKey_prev {p : Params} (r : Regs p) (d : Word) : (appendKey r d).prev = r.prev := by
  unfold appendKey; split <;> rfl
@[simp] theorem appendKey_buf {p : Params} (r : Regs p) (d : Word) : (appendKey r d).buf = r.buf := by
  unfold appendKey; split <;> rfl

/-- The mode of a MODE field 0 or 1 (R76). -/
theorem modeOf_lt {m : Nat} (h : m < 2) : modeOf m = some (if m = 0 then Mode.ctr else Mode.cbc) := by
  match m, h with
  | 0, _ => rfl
  | 1, _ => rfl

/-- A supported lane count fits the 8-bit lanes register (R8). -/
theorem supported_bounds {p : Params} (hp : p.Wf) {l : Nat} (h : l ∈ p.supportedL) : 1 ≤ l ∧ l ≤ p.lmax ∧ l < 256 := by
  have := hp.2.1 l h; have := hp.1; omega

section Unlocked
variable {s : State} (hc : s.regs.cfgValid = false)
include hc

theorem exec_keyWrite (d : Word) : exec (.keyWrite d) s = .next (s.complete (appendKey s.regs d) 0) := by
  simp only [exec, execKeyWrite, whenUnlocked, hc]; rfl
theorem exec_ctrWrite {lane k : Nat} (hl : lane < s.params.lmax) (hk : k < s.params.w) (d : Word) :
    exec (.ctrWrite lane k d) s =
      .next (s.complete (writeCtrWord s.regs ⟨lane, hl⟩ k (d.setWidth s.params.cwb)) 0) := by
  simp only [exec, execCtrWrite, whenUnlocked, hc]; rw [dif_pos ⟨hl, hk⟩]; rfl
theorem exec_ctrWrite_range {lane k : Nat} (h : s.params.lmax ≤ lane ∨ s.params.w ≤ k) (d : Word) :
    exec (.ctrWrite lane k d) s = .next (s.raise .errRange) := by
  simp only [exec, execCtrWrite, whenUnlocked, hc]; rw [dif_neg (by omega)]; rfl
theorem exec_ivWrite {lane c : Nat} (hl : lane < s.params.lmax) (hk : c < s.params.chunks) (d : Word) :
    exec (.ivWrite lane c d) s = .next (s.complete (writePrevChunk s.regs ⟨lane, hl⟩ c d) 0) := by
  simp only [exec, execIvWrite, whenUnlocked, hc]; rw [dif_pos ⟨hl, hk⟩]; rfl
theorem exec_ivWrite_range {lane c : Nat} (h : s.params.lmax ≤ lane ∨ s.params.chunks ≤ c) (d : Word) :
    exec (.ivWrite lane c d) s = .next (s.raise .errRange) := by
  simp only [exec, execIvWrite, whenUnlocked, hc]; rw [dif_neg (by omega)]; rfl
theorem exec_create {m : Nat} {md : Mode} {df st : Bool} {l : Nat} (hm : modeOf m = some md) (h0 : l ≠ 0)
    (hl : l ∈ s.params.supportedL) (hk : s.regs.keyCount = s.params.keylen) :
    exec (.create m df st l) s = .next (s.complete (configure md df st l s.regs) 0) := by
  simp only [exec, execCreate, whenUnlocked, hc, hm]
  rw [if_neg (by simp), if_neg (by tauto), if_neg (by simpa using hk)]
theorem exec_nextWord_notcfg : exec .nextWord s = .next (s.raise .errNotcfg) := by
  simp [exec, execNextWord, whenConfigured, hc]

end Unlocked

section Locked
variable {s : State} (hc : s.regs.cfgValid = true)
include hc

theorem exec_keyWrite_locked (d : Word) : exec (.keyWrite d) s = .next (s.raise .errLocked) := by
  simp only [exec, execKeyWrite, whenUnlocked, hc]; rfl
theorem exec_ctrWrite_locked (lane k : Nat) (d : Word) : exec (.ctrWrite lane k d) s = .next (s.raise .errLocked) := by
  simp only [exec, execCtrWrite, whenUnlocked, hc]; rfl
theorem exec_ivWrite_locked (lane c : Nat) (d : Word) : exec (.ivWrite lane c d) s = .next (s.raise .errLocked) := by
  simp only [exec, execIvWrite, whenUnlocked, hc]; rfl
theorem exec_create_locked (m : Nat) (df st : Bool) (l : Nat) :
    exec (.create m df st l) s = .next (s.raise .errLocked) := by
  simp only [exec, execCreate, whenUnlocked, hc]; rfl
theorem exec_nextWord_of_lt (hq : (refillIfExhausted s.regs).pos < s.params.nmax) :
    exec .nextWord s = .next (s.complete
      { refillIfExhausted s.regs with pos := (refillIfExhausted s.regs).pos + 1 }
      (refillIfExhausted s.regs).buf[(refillIfExhausted s.regs).pos]) := by
  simp only [exec, execNextWord, whenConfigured, hc, bufRead]
  rw [Vector.getElem?_eq_getElem hq]; rfl

end Locked

/-- All that a command which goes on can have done: an error and nothing else, or its one effect. -/
theorem exec_cases (i : Instr) (s t : State) (h : exec i s = .next t) :
    (∃ st, st ≠ .ok ∧ t = s.raise st) ∨
    (i = .nop ∧ t = s.complete s.regs 0) ∨
    (∃ din, i = .keyWrite din ∧ s.regs.cfgValid = false ∧ t = s.complete (appendKey s.regs din) 0) ∨
    (∃ lane k din, ∃ h : lane < s.params.lmax, k < s.params.w ∧ i = .ctrWrite lane k din ∧ s.regs.cfgValid = false ∧
      t = s.complete (writeCtrWord s.regs ⟨lane, h⟩ k (din.setWidth s.params.cwb)) 0) ∨
    (∃ lane c din, ∃ h : lane < s.params.lmax, c < s.params.chunks ∧ i = .ivWrite lane c din ∧
      s.regs.cfgValid = false ∧ t = s.complete (writePrevChunk s.regs ⟨lane, h⟩ c din) 0) ∨
    (∃ mode dflt str1 l md, i = .create mode dflt str1 l ∧ modeOf mode = some md ∧ l ≠ 0 ∧ l ∈ s.params.supportedL ∧
      s.regs.keyCount = s.params.keylen ∧ s.regs.cfgValid = false ∧
      t = s.complete (configure md dflt str1 l s.regs) 0) ∨
    (∃ w, i = .nextWord ∧ s.regs.cfgValid = true ∧
      t = s.complete { refillIfExhausted s.regs with pos := (refillIfExhausted s.regs).pos + 1 } w) ∨
    (i = .destroy ∧ t = s.complete (Regs.reset s.params) 0) := by
  cases i
  · cases h; simp
  · simp only [exec, execKeyWrite, whenUnlocked] at h
    split at h
    · cases h; exact .inl ⟨_, by decide, rfl⟩
    · rename_i hc; cases h; exact .inr (.inr (.inl ⟨_, rfl, by simpa using hc, rfl⟩))
  · simp only [exec, execCtrWrite, whenUnlocked] at h
    split at h
    · cases h; exact .inl ⟨_, by decide, rfl⟩
    · rename_i hc
      split at h
      · rename_i hr
        cases h
        exact .inr (.inr (.inr (.inl ⟨_, _, _, hr.1, hr.2, rfl, by simpa using hc, rfl⟩)))
      · cases h; exact .inl ⟨_, by decide, rfl⟩
  · simp only [exec, execIvWrite, whenUnlocked] at h
    split at h
    · cases h; exact .inl ⟨_, by decide, rfl⟩
    · rename_i hc
      split at h
      · rename_i hr
        cases h
        exact .inr (.inr (.inr (.inr (.inl ⟨_, _, _, hr.1, hr.2, rfl, by simpa using hc, rfl⟩))))
      · cases h; exact .inl ⟨_, by decide, rfl⟩
  · simp only [exec, execCreate, whenUnlocked] at h
    split at h
    · cases h; exact .inl ⟨_, by decide, rfl⟩
    · rename_i hc
      split at h
      · cases h; exact .inl ⟨_, by decide, rfl⟩
      · split at h
        · cases h; exact .inl ⟨_, by decide, rfl⟩
        · split at h
          · cases h; exact .inl ⟨_, by decide, rfl⟩
          · rename_i hm hl hk
            cases h
            push Not at hl hk
            exact .inr (.inr (.inr (.inr (.inr (.inl
              ⟨_, _, _, _, _, rfl, hm, hl.1, hl.2, hk, by simpa using hc, rfl⟩)))))
  · simp only [exec, execNextWord, whenConfigured] at h
    split at h
    · cases h; exact .inl ⟨_, by decide, rfl⟩
    · rename_i hc
      split at h
      · cases h; exact .inr (.inr (.inr (.inr (.inr (.inr (.inl ⟨_, rfl, by simpa using hc, rfl⟩))))))
      · cases h
  · cases h; simp

/-- All that a step which goes on can have done: no register changed and at most an error or an empty response, or
ResetState, or a command executed. -/
theorem step_cases (s t : State) (h : step s = .next t) :
    (∃ x ins, t = { s with response := x, inputs := ins } ∧ x.all (fun r => r.status ≠ .ok && r.dout = 0)) ∨
    (∃ ins, t = { s with regs := Regs.reset s.params, response := none, inputs := ins }) ∨
    ∃ c rest i, s.inputs = .command c :: rest ∧ decode c = .instr i ∧ exec i { s with inputs := rest } = .next t := by
  unfold step accept at h
  rcases hi : s.inputs with _ | ⟨e, rest⟩
  · simp only [hi] at h; cases h; exact .inl ⟨_, _, rfl, rfl⟩
  · cases e <;> simp only [hi] at h
    · cases h; exact .inl ⟨_, _, rfl, rfl⟩
    · unfold execute at h; split at h
      · rename_i hd; exact .inr (.inr ⟨_, _, _, rfl, hd, h⟩)
      · cases h; exact .inl ⟨_, _, rfl, by simp⟩
    · cases h; exact .inr (.inl ⟨_, rfl⟩)

/-- No command looks at the response before it. -/
theorem exec_response (i : Instr) (s : State) (x : Option (Response s.params.owb)) :
    exec i { s with response := x } = exec i s := by
  cases i
  case nextWord =>
    simp only [exec, execNextWord, whenConfigured]
    split
    · rfl
    · split <;> rfl
  all_goals rfl

/-- A run of no command. -/
@[simp] theorem runAll_nil (s : State) : runAll [] s = some s := rfl

/-- A run whose first command goes on. -/
theorem runAll_cons {i : Instr} {s t : State} (h : exec i s = .next t) (rest : List Instr) :
    runAll (i :: rest) s = runAll rest t := by
  simp only [runAll, h, goesOn, Option.bind_some]

/-- One run after another. -/
theorem runAll_append (a b : List Instr) (s : State) : runAll (a ++ b) s = (runAll a s).bind (runAll b) := by
  induction a generalizing s with
  | nil => rfl
  | cons i a ih =>
    simp only [List.cons_append, runAll]
    cases goesOn (exec i s) with
    | none => rfl
    | some t => simp only [Option.bind_some]; exact ih t

section Runs
variable {p : Params} (n : Nat) (r : Regs p)

theorem refills_succ : refills (n + 1) r = refill (refills n r) := by
  induction n generalizing r with
  | zero => rfl
  | succ n ih => exact ih (refill r)
theorem advances_succ : advances (n + 1) r = advance (advances n r) := by
  induction n generalizing r with
  | zero => rfl
  | succ n ih => exact ih (advance r)

/-- What no number of refills changes. -/
theorem refills_frame :
    (refills n r).cfgValid = r.cfgValid ∧ (refills n r).mode = r.mode ∧ (refills n r).lanes = r.lanes ∧
    (refills n r).stride = r.stride ∧ (refills n r).key = r.key ∧ (refills n r).keyCount = r.keyCount := by
  induction n with
  | zero => exact ⟨rfl, rfl, rfl, rfl, rfl, rfl⟩
  | succ n ih => rw [refills_succ]; simpa using ih

/-- What no number of ADVANCEs changes, of the registers ADVANCE reads. -/
theorem advances_frame : (advances n r).lanes = r.lanes ∧ (advances n r).stride = r.stride := by
  induction n with
  | zero => exact ⟨rfl, rfl⟩
  | succ n ih => rw [advances_succ]; simpa using ih

/-- Refills move the counters as ADVANCEs do. -/
theorem refills_ctr_eq_advances : (refills n r).ctr = (advances n r).ctr := by
  induction n with
  | zero => rfl
  | succ n ih =>
    rw [refills_succ, refill_ctr, advances_succ]
    apply Vector.ext; intro i hi
    rw [advance_ctr, advance_ctr, (refills_frame n r).2.2.1, (refills_frame n r).2.2.2.1, (advances_frame n r).1,
      (advances_frame n r).2]
    simp only [ih]

end Runs

end Sys2Proof.Machine
end

