-- ==== Sys2Proof/Laws/PerInstr.lean ====
section
/-! SUPPORT. The family EncodingRow: for each command, its encoding is the opcode table's own row for it. -/

namespace Sys2Proof

/-- The table row (R74) with this mnemonic, and its opcode. -/
def rowNamed (m : String) : Option (Nat × OpcodeRow) :=
  ((List.range 16).filterMap fun op => (rowOf op).map fun r => (op, r)).find? fun x => x.2.mnemonic = m

/-- The command's mnemonic names one row of the table, and the command's word has that row's opcode and matches it under
its mask, whatever the operands (R74). -/
def Laws.EncodingRow.Statement (i : Instr) : Prop :=
  ∃ op row, rowNamed i.mnemonic = some (op, row) ∧ field (encode i).cmd 0 4 = op ∧
    (encode i).cmd &&& row.mask = row.pattern

theorem Laws.EncodingRow.nop : Laws.EncodingRow.Statement .nop :=
  ⟨_, _, rfl, rfl, rfl⟩

theorem Laws.EncodingRow.keyWrite (din : Word) : Laws.EncodingRow.Statement (.keyWrite din) :=
  ⟨1, ⟨"KEY_WRITE", 1, 0xFFFFFFFF⟩, rfl, commandWord_op 1 0 0 0,
    (by decide : commandWord 1 0 0 0 &&& 0xFFFFFFFF = (1 : Word))⟩

theorem Laws.EncodingRow.ctrWrite (lane k : Nat) (din : Word) : Laws.EncodingRow.Statement (.ctrWrite lane k din) :=
  ⟨_, _, rfl, commandWord_op _ _ _ _,
    (and_indexMask _ _ (by decide)).2 ⟨commandWord_op _ _ _ _, commandWord_mod _ _ _ _, commandWord_rsv _ _ _ _⟩⟩

theorem Laws.EncodingRow.ivWrite (lane c : Nat) (din : Word) : Laws.EncodingRow.Statement (.ivWrite lane c din) :=
  ⟨_, _, rfl, commandWord_op _ _ _ _,
    (and_indexMask _ _ (by decide)).2 ⟨commandWord_op _ _ _ _, commandWord_mod _ _ _ _, commandWord_rsv _ _ _ _⟩⟩

theorem Laws.EncodingRow.create (mode : Nat) (dflt str1 : Bool) (lanes : Nat) :
    Laws.EncodingRow.Statement (.create mode dflt str1 lanes) :=
  ⟨_, _, rfl, commandWord_op _ _ _ _,
    (and_createMask _ _ (by decide)).2 ⟨commandWord_op _ _ _ _, commandWord_b _ _ _ _, commandWord_rsv _ _ _ _⟩⟩

theorem Laws.EncodingRow.nextWord : Laws.EncodingRow.Statement .nextWord :=
  ⟨_, _, rfl, rfl, rfl⟩

theorem Laws.EncodingRow.destroy : Laws.EncodingRow.Statement .destroy :=
  ⟨_, _, rfl, rfl, rfl⟩

end Sys2Proof
end

