-- ==== Sys2Proof/Tests/Slice0.lean ====
section
/-! SUPPORT. The model's own tests: the smoke test of WellFormed, words written out from the spec's encodings, single steps
of the vectors of 95_test_vectors.md, and a witness for the hypotheses of every obligation that has any. The expected
values are the spec's; the vector or program is named beside each test. -/

namespace Sys2Proof.Machine

/-! ## Small states -/

/-- Geometry G1 with E_xk (95 section 2). -/
abbrev g1 : Params :=
  { lmax := 4, supportedL := [1, 2, 3, 4], w := 1, cwb := 32, bw := 64, owb := 32, keylen := 2,
    bufLayout := .laneMajor, transform := .xorKey }

/-- Geometry G2 with E_id (95 section 2). -/
abbrev g2 : Params :=
  { lmax := 2, supportedL := [1, 2], w := 2, cwb := 32, bw := 64, owb := 64, keylen := 0,
    bufLayout := .laneMajor, transform := .identity }

/-- The largest KSC that R8 and D32 admit. -/
abbrev gMax : Params :=
  { lmax := 255, supportedL := [1, 255], w := 256, cwb := 32, bw := 8192, owb := 64, keylen := 255,
    bufLayout := .wordMajor, transform := .supplied 0 }

/-- A state with these registers, no response and nothing presented. -/
abbrev holding {p : Params} (r : Regs p) : State := { params := p, regs := r, response := none, inputs := [] }

/-- The status and DOUT an outcome returns. -/
def reply (o : Host.Outcome State Fault Refusal) : Option (Status × Nat) := (goesOn o).bind observe

/-- A number read from the state an outcome goes on in. -/
def readBack (f : State → Nat) (o : Host.Outcome State Fault Refusal) : Option Nat := (goesOn o).map f

/-- G1 after rows 1 and 2 of Program 1: the key is loaded. -/
abbrev keyed : Regs g1 :=
  { Regs.reset g1 with
    key := #v[0xA5A5A5A5, 0x0F0F0F0F], keyCount := 2 }

/-- G1 after one KEY_WRITE. -/
abbrev halfKeyed : Regs g1 :=
  { Regs.reset g1 with
    key := #v[0x11111111, 0], keyCount := 1 }

/-- G1 after row 3 of Program 1. -/
abbrev created : Regs g1 :=
  { Regs.reset g1 with
    cfgValid := true, lanes := 2, stride := 2, ctr := #v[0, 1, 0, 0], pos := 4,
    key := #v[0xA5A5A5A5, 0x0F0F0F0F], keyCount := 2 }

/-- G1 after row 4 of Program 1. -/
abbrev streaming : Regs g1 :=
  { created with
    ctr := #v[2, 3, 0, 0], pos := 1, buf := #v[0xA5A5A5A5, 0x0F0F0F0F, 0xA5A5A5A4, 0x0F0F0F0F, 0, 0, 0, 0] }

/-- G1 after row 4 of Program 2. -/
abbrev chained : Regs g1 :=
  { Regs.reset g1 with
    cfgValid := true, mode := .cbc, lanes := 2, stride := 2, ctr := #v[0, 1, 0, 0],
    prev := #v[0, 0x8000000000000000, 0, 0], pos := 4, key := #v[0x10, 0], keyCount := 2 }

/-- G2 after row 3 of Program 3. -/
abbrev wrapping : Regs g2 :=
  { Regs.reset g2 with
    cfgValid := true, lanes := 1, stride := 1, ctr := #v[0xFFFFFFFFFFFFFFFF, 0], pos := 1 }

/-- G2 in CBC mode with two lanes. -/
abbrev chainedId : Regs g2 :=
  { Regs.reset g2 with
    cfgValid := true, mode := .cbc, lanes := 2, stride := 2, ctr := #v[0, 1], pos := 2 }

/-! ## WellFormed refuses an operand that does not fit its field -/

theorem test_wf_ctrWrite_lane : (Instr.ctrWrite 256 0 0).wf = false := by decide
theorem test_wf_ctrWrite_word : (Instr.ctrWrite 0 256 0).wf = false := by decide
theorem test_wf_ivWrite_lane : (Instr.ivWrite 256 0 0).wf = false := by decide
theorem test_wf_ivWrite_chunk : (Instr.ivWrite 0 256 0).wf = false := by decide
theorem test_wf_create_mode : (Instr.create 4 false false 1).wf = false := by decide
theorem test_wf_create_lanes : (Instr.create 0 false false 256).wf = false := by decide
theorem test_params_cwb_too_narrow : ¬ ({ g1 with cwb := 7 } : Params).Wf := by decide
theorem test_params_counter_wider_than_block : ¬ ({ g1 with w := 3 } : Params).Wf := by decide

/-! ## Words written out from the encodings of 30_encoding.md -/

/-- EN-1, EN-11, R82: the three words without fields. -/
theorem test_decode_plain : decodeTableWord 32 0x00000000 = some .nop ∧ decodeTableWord 32 0x00000005 = some .nextWord ∧
    decodeTableWord 32 0x00000006 = some .destroy := by decide
/-- Program 1 row 1, DIN in the second word. -/
theorem test_decode_keyWrite : decodeTableWord 64 0xA5A5A5A500000001 = some (.keyWrite 0xA5A5A5A5) := by decide
/-- EN-7: A in bits 15..8, B in bits 23..16. -/
theorem test_decode_ctrWrite : decodeTableWord 64 0x1234567800FF0102 = some (.ctrWrite 1 255 0x12345678) := by decide
/-- R82, Program 2 row 3. -/
theorem test_decode_ivWrite : decodeTableWord 64 0x8000000000010103 = some (.ivWrite 1 1 0x80000000) := by decide
/-- EN-10 and EN-9: MODE in bits 5..4, DFLT bit 6, STR1 bit 7, L_req in bits 15..8. -/
theorem test_decode_create : decodeTableWord 32 0x000004D4 = some (.create 1 true true 4) ∧
    decodeTableWord 32 0x000000F4 = some (.create 3 true true 0) := by decide
/-- EN-3 and EN-4: the reserved opcodes, first and last. -/
theorem test_decode_reserved : decode ⟨0x00000007, 0⟩ = .illegal .reservedOpcode ∧
    decode ⟨0x0000000F, 0⟩ = .illegal .reservedOpcode := by decide
/-- EN-2, EN-5, EN-6, EN-8, EN-12: a must-be-zero bit set. -/
theorem test_decode_mustBeZero : decode ⟨0x00000100, 0⟩ = .illegal .mustBeZero ∧
    decode ⟨0x01000005, 0⟩ = .illegal .mustBeZero ∧ decode ⟨0x00000015, 0⟩ = .illegal .mustBeZero ∧
    decode ⟨0x00010004, 0⟩ = .illegal .mustBeZero ∧ decode ⟨0x80000006, 0⟩ = .illegal .mustBeZero := by decide

/-- R80: the text of a command. -/
theorem test_asmText : asmText (.create 1 true true 4) = "CREATE mode=CBC, lanes=4, dflt, stride1" := by decide

/-! ## Single steps -/

/-- CT-3, presented at the port right after reset. -/
theorem test_nop_from_reset : reply (step (State.reset.withFetchWord 32 0x00000000)) = some (.ok, 0) := by decide
/-- Program 4 row 2. -/
theorem test_illegal_word : reply (step (State.reset.withFetchWord 32 0x00000007)) = some (.errIllegal, 0) := by decide
/-- Program 1 row 2: the second key word. -/
theorem test_keyWrite : readBack (fun t => (t.regs.key.toList.map BitVec.toNat).getD 1 0 + t.regs.keyCount)
    (exec (.keyWrite 0x0F0F0F0F) (holding halfKeyed)) = some (0x0F0F0F0F + 2) := by decide
/-- CT-1: a third key word is counted and not stored. -/
theorem test_keyWrite_saturates : readBack (fun t => t.regs.keyCount) (exec (.keyWrite 3) (holding keyed)) = some 3 := by
  decide
/-- Program 3 row 2: word 1 is the high word. -/
theorem test_ctrWrite : readBack (fun t => (t.regs.ctr.toList.map BitVec.toNat).getD 0 0)
    (exec (.ctrWrite 0 1 0xFFFFFFFF) (holding { Regs.reset g2 with ctr := #v[0xFFFFFFFF, 0] })) =
      some 0xFFFFFFFFFFFFFFFF := by decide
/-- CB-12 and CB-13: an index out of range, and the lock checked first. -/
theorem test_ctrWrite_errors : reply (exec (.ctrWrite 4 0 0) (holding keyed)) = some (.errRange, 0) ∧
    reply (exec (.ctrWrite 4 0 0) (holding created)) = some (.errLocked, 0) := by decide
/-- Program 2 row 3. -/
theorem test_ivWrite : readBack (fun t => (t.regs.prev.toList.map BitVec.toNat).getD 1 0)
    (exec (.ivWrite 1 1 0x80000000) (holding keyed)) = some 0x8000000000000000 := by decide
/-- MX-9. -/
theorem test_ivWrite_range : reply (exec (.ivWrite 0 2 0) (holding keyed)) = some (.errRange, 0) := by decide
/-- Program 1 row 3. -/
theorem test_create : (goesOn (exec (.create 0 true false 2) (holding keyed))).map (fun t => t.regs.pos) = some 4 ∧
    readBack (fun t => t.regs.stride.toNat) (exec (.create 0 true false 2) (holding keyed)) = some 2 := by decide
/-- CT-2, Program 4 row 7: the order of CREATE's checks. -/
theorem test_create_errors : reply (exec (.create 3 false false 0) State.reset) = some (.errMode, 0) ∧
    reply (exec (.create 0 true false 5) (holding halfKeyed)) = some (.errLanes, 0) ∧
    reply (exec (.create 0 true false 2) (holding halfKeyed)) = some (.errKeylen, 0) := by decide
/-- Program 1 row 4: refill 0 and its first word; RF-7. -/
theorem test_nextWord : reply (exec .nextWord (holding created)) = some (.ok, 0xA5A5A5A5) ∧
    reply (exec .nextWord State.reset) = some (.errNotcfg, 0) := by decide
/-- Program 3 row 4: the carry through both words, the top carry discarded. -/
theorem test_nextWord_wraps : reply (exec .nextWord (holding wrapping)) = some (.ok, 0xFFFFFFFFFFFFFFFF) ∧
    readBack (fun t => (t.regs.ctr.toList.map BitVec.toNat).getD 0 1) (exec .nextWord (holding wrapping)) = some 0 := by
  decide
/-- Program 4 row 16. -/
theorem test_destroy : (goesOn (exec .destroy (holding streaming))).map (fun t => t.regs.cfgValid) = some false ∧
    readBack (fun t => (t.regs.key.toList.map BitVec.toNat).getD 0 1) (exec .destroy (holding streaming)) = some 0 := by
  decide

/-! ## Refill, layout and counters -/

/-- Program 1 row 4 and MX-10: the whole buffer; prev is not written in CTR mode. -/
theorem test_refill_ctr : (refill created).buf = #v[0xA5A5A5A5, 0x0F0F0F0F, 0xA5A5A5A4, 0x0F0F0F0F, 0, 0, 0, 0] ∧
    (refill created).prev = #v[0, 0, 0, 0] := by decide
/-- Program 2 row 5: the chained blocks. -/
theorem test_refill_cbc : (refill chained).buf = #v[0x10, 0, 0x11, 0x80000000, 0, 0, 0, 0] ∧
    (refill chained).prev = #v[0x10, 0x8000000000000011, 0, 0] := by decide
/-- RF-1: the two layouts. -/
theorem test_slots : slot g1 2 1 0 = 2 ∧ slot { g1 with bufLayout := .wordMajor } 2 1 0 = 1 := by decide
/-- CB-3 and CB-5: one carry, two propagations. -/
theorem test_advance_carries :
    advanceCounter { g1 with w := 2 } 3 (0x00000000FFFFFFFE : BitVec 64) = (0x0000000100000001 : BitVec 64) ∧
    advanceCounter { g1 with w := 3, bw := 96 } 255 (0x00000000FFFFFFFFFFFFFF01 : BitVec 96) =
      (0x000000010000000000000000 : BitVec 96) := by decide
/-- MX-2 and MX-1. -/
theorem test_inputMux : inputMux { chained with ctr := #v[5, 0, 0, 0], prev := #v[0xF, 0, 0, 0] } 0 = 0xA ∧
    inputMux { created with ctr := #v[5, 0, 0, 0], prev := #v[0xFFFFFFFFFFFFFFFF, 0, 0, 0] } 0 = 5 := by decide

/-! ## Witnesses for the hypotheses of the obligations -/

theorem witness_params : g1.Wf ∧ g2.Wf ∧ gMax.Wf ∧ Config.resetParams.Wf := by decide

theorem witness_inv_created : (holding created).Inv :=
  ⟨by decide, by unfold Regs.ControlInv; decide, by unfold Regs.KeyInv; decide, by unfold Regs.BufferInv; decide,
    by intro r h; cases h⟩
theorem witness_inv_streaming : (holding streaming).Inv :=
  ⟨by decide, by unfold Regs.ControlInv; decide, by unfold Regs.KeyInv; decide, by unfold Regs.BufferInv; decide,
    by intro r h; cases h⟩
theorem witness_inv_keyed : (holding keyed).Inv :=
  ⟨by decide, by unfold Regs.ControlInv; decide, by unfold Regs.KeyInv; decide, by unfold Regs.BufferInv; decide,
    by intro r h; cases h⟩

theorem witness_exhausted : created.Exhausted ∧ chained.Exhausted ∧ wrapping.Exhausted := by
  unfold Regs.Exhausted; decide

/-- MatchAndMaskSelectTheCommand: a word that matches a row, with every free bit set. -/
theorem witness_MatchAndMask : rowOf 2 = some ⟨"CTR_WRITE", 0x00000002, 0xFF0000FF⟩ ∧
    (0x00FFFF02 : Word) &&& 0xFF0000FF = 0x00000002 := by decide

/-- IllegalWordsCompleteWithErrIllegal: one illegal word for each of the four cases. -/
theorem witness_IllegalWords :
    (decode ⟨0x7, 0⟩ = .illegal .reservedOpcode ∧ 7 ≤ field 0x7 0 4) ∧
    (decode ⟨0x15, 0⟩ = .illegal .mustBeZero ∧ field 0x15 0 4 = 5 ∧ field 0x15 4 4 ≠ 0) ∧
    (decode ⟨0x80000002, 0⟩ = .illegal .mustBeZero ∧ field 0x80000002 0 4 = 2 ∧ field 0x80000002 24 8 ≠ 0) ∧
    (decode ⟨0x00800004, 0⟩ = .illegal .mustBeZero ∧ field 0x00800004 0 4 = 4 ∧ field 0x00800004 16 8 ≠ 0) := by decide

/-- DecodeInvertsEncode: every operand at the top of its field. -/
theorem witness_DecodeInvertsEncode : (Instr.ctrWrite 255 255 0xFFFFFFFF).wf = true ∧
    (Instr.ivWrite 255 255 0xFFFFFFFF).wf = true ∧ (Instr.create 3 true true 255).wf = true := by decide

/-- EncodeInvertsDecode, with DIN an operand. -/
theorem witness_EncodeInvertsDecode : decode ⟨0x00FFFF03, 7⟩ = .instr (.ivWrite 255 255 7) ∧
    (Instr.ivWrite 255 255 7).usesDin = true := by decide

/-- IgnoredDataWordHasNoEffect: the four commands. -/
theorem witness_IgnoredDataWord :
    (decode ⟨0x0, 1⟩ = .instr .nop ∧ Instr.nop.usesDin = false) ∧
    (decode ⟨0xFFF4, 1⟩ = .instr (.create 3 true true 255) ∧ (Instr.create 3 true true 255).usesDin = false) ∧
    (decode ⟨0x5, 1⟩ = .instr .nextWord ∧ Instr.nextWord.usesDin = false) ∧
    (decode ⟨0x6, 1⟩ = .instr .destroy ∧ Instr.destroy.usesDin = false) := by decide

/-- StepRunsTheDecodedCommand: a legal and an illegal command at the port, and a table word. -/
theorem witness_StepRuns :
    (present State.reset ⟨0x102, 9⟩).inputs = .command ⟨0x102, 9⟩ :: [] ∧
    decode ⟨0x102, 9⟩ = .instr (.ctrWrite 1 0 9) ∧ decode ⟨0x7, 0⟩ = .illegal .reservedOpcode ∧
    decodeTableWord 64 0x0000000900000102 = some (.ctrWrite 1 0 9) := by decide

/-- StepTakesOneEvent: a step that goes on, an empty port, an idle one. -/
theorem witness_StepTakesOneEvent :
    step (present (holding created) ⟨0, 0⟩) = .next ((holding created).complete created 0) ∧
    (holding created).inputs = [] ∧
    ({ holding created with inputs := [.idle] } : State).inputs = .idle :: [] :=
  ⟨rfl, rfl, rfl⟩

/-- ResetAndDestroyClearEverything: reset with and without a command outstanding. -/
theorem witness_ResetAndDestroy :
    ({ holding streaming with inputs := [.reset none] } : State).inputs = .reset none :: [] ∧
    ({ holding streaming with inputs := [.reset (some ⟨5, 0⟩)] } : State).inputs = .reset (some ⟨5, 0⟩) :: [] := by decide

/-- StepKeepsTheControlInvariant and StepKeepsTheInvariant: NEXT_WORD in a configured core. -/
theorem witness_StepKeeps : ∃ s t : State, s.params.Wf ∧ s.regs.ControlInv ∧ s.Inv ∧ step s = .next t ∧
    t.regs.pos = 1 := by
  obtain ⟨hb, hc, hk, hbuf, hr⟩ := witness_inv_created
  refine ⟨present (holding created) ⟨5, 0⟩, _, hb, hc, ⟨hb, hc, hk, hbuf, hr⟩, rfl, by decide⟩

/-- StepNeverStops: a configured core. -/
theorem witness_StepNeverStops : (holding streaming).Inv := witness_inv_streaming

/-- OnlyCreateConfigures: a step that sets cfg_valid, and two that clear it. -/
theorem witness_OnlyCreate :
    ((goesOn (step (present (holding keyed) ⟨0x244, 0⟩))).map (·.regs.cfgValid) = some true ∧
      (holding keyed).regs.cfgValid = false) ∧
    ((goesOn (step (present (holding created) ⟨6, 0⟩))).map (·.regs.cfgValid) = some false ∧
      (holding created).regs.cfgValid = true) ∧
    (goesOn (step { holding created with inputs := [.reset none] })).map (·.regs.cfgValid) = some false := by decide

/-- ModeIsFixedForTheLifeOfAConfiguration: a configured core that steps, and commands that change the mode. -/
theorem witness_ModeIsFixed :
    (∃ t, (present (holding chained) ⟨5, 0⟩).regs.cfgValid = true ∧
      step (present (holding chained) ⟨5, 0⟩) = .next t) ∧
    (goesOn (exec (.create 1 true false 2) (holding keyed))).map (·.regs.mode) = some .cbc ∧
    keyed.mode = .ctr ∧ (goesOn (exec .destroy (holding chained))).map (·.regs.mode) = some .ctr :=
  ⟨⟨_, rfl, rfl⟩, by decide, by decide, by decide⟩

/-- StatusIsTheFirstCause: a command that is executed, with two causes, and G1's key length. -/
theorem witness_StatusIsTheFirstCause : execute ⟨0x402, 0⟩ (holding created) = .next ((holding created).raise .errLocked) ∧
    causePresent ⟨0x402, 0⟩ (holding created) .errLocked = true ∧
    causePresent ⟨0x402, 0⟩ (holding created) .errRange = true ∧ g1.keylen = 2 :=
  ⟨rfl, by decide, by decide, rfl⟩

/-- ErrorsArePrecise and FailedCommandLeavesNoTrace: a command that fails. -/
theorem witness_ErrorsArePrecise : execute ⟨0x402, 0⟩ (holding keyed) = .next ((holding keyed).raise .errRange) ∧
    (observe ((holding keyed).raise .errRange)).map Prod.fst ≠ some .ok :=
  ⟨rfl, by decide⟩

/-- OnlyNextWordReturnsData: another command, and NEXT_WORD in an unconfigured core. -/
theorem witness_OnlyNextWord : (∃ t, exec .nop (holding created) = .next t ∧ Instr.nop ≠ .nextWord) ∧
    ∃ t, exec .nextWord (holding keyed) = .next t ∧ (holding keyed).regs.cfgValid = false :=
  ⟨⟨_, rfl, by decide⟩, ⟨_, rfl, rfl⟩⟩

/-- HotPathNeverFails and NextWordReturnsTheWordAtTheCursor: words left, none left, and unconfigured. -/
theorem witness_HotPath : ((holding created).Inv ∧ created.cfgValid = true ∧ created.pos = bufLen created) ∧
    ((holding streaming).Inv ∧ streaming.cfgValid = true ∧ streaming.pos < bufLen streaming) ∧
    ((holding keyed).Inv ∧ keyed.cfgValid = false) :=
  ⟨⟨witness_inv_created, by decide, by decide⟩, ⟨witness_inv_streaming, by decide, by decide⟩,
    ⟨witness_inv_keyed, by decide⟩⟩

/-- AfterResetOnlyNextWordIsRefused: the last lane, word and chunk of G1. -/
theorem witness_AfterReset : 3 < g1.lmax ∧ 0 < g1.w ∧ 1 < g1.chunks := by decide

/-- NopDoesNothing: a non-zero word with OP = 0. -/
theorem witness_Nop : field 0x80000000 0 4 = 0 ∧ (0x80000000 : Word) ≠ 0 := by decide

/-- KeyWriteAppendsOneWord: room for the last word, and no room left. -/
theorem witness_KeyWrite : (halfKeyed.cfgValid = false ∧ halfKeyed.keyCount + 1 = g1.keylen) ∧
    (keyed.cfgValid = false ∧ g1.keylen ≤ keyed.keyCount) := by decide

/-- LoadKeyCountsAndStoresTheWords: one word too many, and the CREATE after it. -/
theorem witness_LoadKey : (Regs.reset g1).cfgValid = false ∧ (Regs.reset g1).keyCount ≤ g1.keylen + 1 ∧
    (0 < 2 ∧ 1 ≠ 0 ∧ 1 ∈ g1.supportedL) ∧
    ∃ t u, runAll (loadKey [1, 2, 3]) (State.resetOf g1) = some t ∧ exec (.create 0 false false 1) t = .next u ∧
      observe u = some (.errKeylen, 0) :=
  ⟨by decide, by decide, by decide, _, _, rfl, rfl, rfl⟩

/-- CtrWriteWritesOneWord: the last word of the last lane of G2, and both ways out of range. -/
theorem witness_CtrWrite : (Regs.reset g2).cfgValid = false ∧ 1 < g2.lmax ∧ 1 < g2.w ∧ (0 : Nat) ≠ 1 ∧
    g2.lmax ≤ 2 ∧ g2.w ≤ 2 := by decide

/-- IvWriteWritesOneChunk: the last chunk of the last lane of G1, and both ways out of range. -/
theorem witness_IvWrite : keyed.cfgValid = false ∧ 3 < g1.lmax ∧ 1 < g1.bw / 32 ∧ (32 * 1 ≤ 63 ∧ 63 < 32 * 1 + 32) ∧
    g1.lmax ≤ 4 ∧ g1.bw / 32 ≤ 2 := by decide

/-- LoadPseudoInstructionsSetTheWholeValue. -/
theorem witness_LoadPseudo : 1 < g2.lmax ∧ g2.Wf ∧ (Regs.reset g2).cfgValid = false := by decide

/-- CreateConfiguresTheCore: both modes, the smallest and the largest lane count. -/
theorem witness_Create : g1.Wf ∧ keyed.cfgValid = false ∧ 1 < 2 ∧ 1 ∈ g1.supportedL ∧ 4 ∈ g1.supportedL ∧
    keyed.keyCount = g1.keylen := by decide

/-- CreateLaysOutTheCountersAndTheStride: the CREATE of Program 1, a lane below L and one from L on. -/
theorem witness_CreateLaysOut : g1.Wf ∧ keyed.cfgValid = false ∧
    exec (.create 0 true false 2) (holding keyed) = .next ((holding keyed).complete created 0) ∧ 1 < 2 ∧
    2 < g1.lmax :=
  ⟨by decide, by decide, rfl, by decide, by decide⟩

/-- AdvanceIsModularAddition and CarriesStayInTheirLane: an active lane and one that is not, two register files. -/
theorem witness_Advance : g1.Wf ∧ 1 < created.lanes.toNat ∧ 1 < g1.lmax ∧ created.lanes.toNat ≤ 2 ∧ 2 < g1.lmax ∧
    1 < streaming.lanes.toNat ∧ created.stride = streaming.stride := by decide

/-- CounterBankPeriod: lanes that exist, an odd stride, a stride that is a power of two and the lane count, and a CTR
configuration just created. -/
theorem witness_CounterBankPeriod : g1.Wf ∧ (0 < created.lanes.toNat ∧ created.lanes.toNat ≤ g1.lmax) ∧
    wrapping.stride.toNat % 2 = 1 ∧ (created.stride.toNat = 2 ^ 1 ∧ created.stride = created.lanes) ∧
    (created.mode = .ctr ∧ streaming.mode = .ctr ∧ streaming.lanes = created.lanes ∧ streaming.key = created.key ∧
      ∀ (i : Nat) (hi : i < 4), i < created.lanes.toNat →
        ({ streaming with ctr := created.ctr } : Regs g1).ctr[i] = created.ctr[i]) ∧
    (holding created).Inv ∧ created.Exhausted :=
  ⟨by decide, by decide, by decide, by decide, ⟨by decide, by decide, by decide, by decide, fun _ _ _ => rfl⟩,
    witness_inv_created, witness_exhausted.1⟩

/-- DefaultLayoutLanesDoNotCollideBeforeTheWrap: the largest R there is for two lanes of 32 bits; the last value; a CREATE. -/
theorem witness_DefaultLayout : g1.Wf ∧ 2 ∈ g1.supportedL ∧ 2147483648 ≤ 2 ^ g1.m / 2 ∧ 2147483647 < 2147483648 ∧
    4294967295 < 2 * 2147483648 ∧ (holding keyed).params = g1 ∧ keyed.cfgValid = false ∧ keyed.keyCount = g1.keylen := by
  decide

/-- InputMuxFeedsCounterOrChainedCounter: each mode, a zero prev block, and the spec's example. -/
theorem witness_InputMux : g1.Wf ∧ created.mode = .ctr ∧ chained.mode = .cbc ∧ chained.prev[0] = 0 ∧
    created.ctr[0] = chained.ctr[0] ∧ g1.bw = 64 ∧ chained.ctr[1].toNat = 1 ∧
    chained.prev[1].toNat = 0x8000000000000000 := by decide

/-- SlotsFillTheBufferOnce: the last word of the last lane, and the last index, in each layout. -/
theorem witness_Slots : g1.bufLayout = .laneMajor ∧ gMax.bufLayout = .wordMajor ∧ 1 < 2 ∧ 1 < g1.wpb ∧ 3 < 2 * g1.wpb ∧
    slot g1 2 1 1 = 3 := by decide

/-- KeyWordsAndChunksAreSlices: the last key word and the last chunk. -/
theorem witness_KeyWords : 1 < g1.keylen ∧ 1 < g1.bw / 32 := by decide

/-- RefillStoresEveryBlock: the last active lane's last word, and the first word no refill writes. -/
theorem witness_Refill : created.lanes.toNat ≤ g1.lmax ∧ 1 < created.lanes.toNat ∧ 1 < g1.wpb ∧ bufLen created ≤ 4 ∧
    4 < g1.nmax := by decide

/-- LaneOrderCannotMatter: two register files that agree on lane 0, a word outside lane 0's slots, another lane, and the
lanes in the other order (RF-6). -/
theorem witness_LaneOrder :
    (({ created with ctr := #v[0, 9, 9, 9] } : Regs g1).mode = created.mode ∧
      ({ created with ctr := #v[0, 9, 9, 9] } : Regs g1).ctr[0] = created.ctr[0]) ∧
    (∀ j, j < g1.wpb → slot g1 created.lanes.toNat 0 j ≠ 2) ∧ (1 : Fin 4) ≠ 0 ∧
    ([1, 0] : List (Fin 4)).Perm (activeLanes created) := by decide

/-- CursorStaysInTheBuffer and ReachableStatesMeetTheInvariant: a configured state reached from reset. -/
theorem witness_Reachable : ∃ s : State, g1.Wf ∧ s.Reachable g1 ∧ s.regs.cfgValid = true ∧ s.regs.pos = 4 :=
  ⟨_, by decide, .step [.command ⟨0x244, 0⟩] (.step [.command ⟨1, 2⟩] (.step [.command ⟨1, 1⟩] .reset rfl) rfl) rfl,
    rfl, by decide⟩

/-- RefillsHappenOncePerBuffer: an exhausted configuration. -/
theorem witness_RefillsHappen : (holding created).Inv ∧ created.Exhausted :=
  ⟨witness_inv_created, witness_exhausted.1⟩

/-- WordsComeInSlotOrder: a CREATE that succeeds. -/
theorem witness_WordsCome : (holding keyed).Inv ∧ keyed.cfgValid = false ∧
    exec (.create 0 true false 2) (holding keyed) = .next ((holding keyed).complete created 0) ∧
    created.cfgValid = true :=
  ⟨witness_inv_keyed, by decide, rfl, by decide⟩

/-- CtrBlocksAreClosedForm. -/
theorem witness_CtrBlocks : g1.Wf ∧ created.mode = .ctr ∧ (1 : Fin 4).val < created.lanes.toNat := by decide

/-- StreamDependsOnlyOnTheActiveLanes: two configurations that differ in the lanes from L on, in the buffer and in
CTR mode's prev blocks. -/
theorem witness_Stream : ∃ a b : Regs g1, g1.Wf ∧ a.ControlInv ∧ b.ControlInv ∧ a.Exhausted ∧ b.Exhausted ∧
    a.SameStream b ∧ a.ctr ≠ b.ctr ∧ a.prev ≠ b.prev ∧ a.buf ≠ b.buf := by
  refine ⟨created, { created with
    ctr := #v[0, 1, 7, 7], prev := #v[1, 2, 3, 4], buf := #v[1, 1, 1, 1, 1, 1, 1, 1] }, by decide,
    by unfold Regs.ControlInv; decide, by unfold Regs.ControlInv; decide, by unfold Regs.Exhausted; decide,
    by unfold Regs.Exhausted; decide, by unfold Regs.SameStream; decide, by decide, by decide, by decide⟩

/-- ChainedDifferencesPropagate: two chained register files of G2, whose E is the identity, that differ in lane 0's
prev block. -/
theorem witness_ChainedDifferences : ∃ a b : Regs g2, a.mode = .cbc ∧ b.mode = .cbc ∧ a.lanes = b.lanes ∧
    a.stride = b.stride ∧ a.key = b.key ∧ a.ctr[0] = b.ctr[0] ∧ 0 < a.lanes.toNat ∧
    Function.Injective (transformBlock g2 (keyVec a)) ∧ a.prev[0] ≠ b.prev[0] :=
  ⟨chainedId, { chainedId with prev := #v[1, 0] }, rfl, rfl, rfl, rfl, rfl, rfl, by decide, fun _ _ h => h, by decide⟩

/-- FirstChainedRefillUsesTheInitializationValue: a chained core created after an IV_WRITE to another lane. -/
theorem witness_FirstChained : ∃ t : State, runAll [.keyWrite 16, .keyWrite 0, .ivWrite 1 1 0x80000000] (State.resetOf g1) =
    some t ∧ t.regs.cfgValid = false ∧
    ∃ r, exec (.create 1 true false 2) t = .next (t.complete r 0) ∧ r.mode = .cbc :=
  ⟨_, rfl, rfl, _, rfl, rfl⟩

/-- No command of that list is an IV_WRITE to lane 0. -/
theorem witness_FirstChained_no_write (k : Nat) (din : Word) :
    Instr.ivWrite 0 k din ∉ [Instr.keyWrite 16, .keyWrite 0, .ivWrite 1 1 0x80000000] := by simp

/-- PerInstr: the family holds of a command with every operand at the top of its field. -/
theorem witness_EncodingRow : Laws.EncodingRow.Statement (.create 3 true true 255) := Laws.EncodingRow.create 3 true true 255

end Sys2Proof.Machine
end

section
/-! PROOF. The control registers keep R29's invariant. The registers R29 speaks of are the whole of it, so a command
that writes none of them has nothing to show; CREATE establishes it from its own checks; NEXT_WORD moves the cursor,
which stays in the buffer because a configured buffer is not empty and an exhausted one is refilled first. -/

namespace Sys2Proof.Machine

variable {p : Params}

/-! ### The buffer length of a KSC that can be built (R8) -/

/-- A block holds at least one output word: BW is a multiple of OWB, and at least M > 0 (R8). -/
theorem wpb_pos (hp : p.Wf) : 0 < p.wpb := by
  obtain ⟨-, -, ⟨hw, -⟩, ⟨hcwb, -⟩, howb, -, hdvd, hm, -⟩ := hp
  have hbw : 0 < p.bw := (Nat.mul_pos (by omega) hw).trans_le hm
  exact Nat.div_pos (Nat.le_of_dvd hbw (Nat.dvd_of_mod_eq_zero hdvd)) (by omega)

/-- The buffer of a supported lane count is not empty. -/
theorem bufLen_pos (hp : p.Wf) {r : Regs p} (hl : r.lanes.toNat ∈ p.supportedL) : 0 < bufLen r :=
  Nat.mul_pos (supported_bounds hp hl).1 (wpb_pos hp)

/-- After NEXT_WORD's own refill there is a word left to read (R124). -/
theorem refillIfExhausted_pos_lt {r : Regs p} (hpos : r.pos ≤ bufLen r) (hN : 0 < bufLen r) :
    (refillIfExhausted r).pos < bufLen r := by
  unfold refillIfExhausted
  split
  case isTrue => rwa [refill_pos]
  case isFalse hne => exact Nat.lt_of_le_of_ne hpos hne

/-! ### KEY_WRITE writes no control register -/

@[simp] theorem appendKey_lanes (r : Regs p) (d : Word) : (appendKey r d).lanes = r.lanes := by
  unfold appendKey; split <;> rfl
@[simp] theorem appendKey_stride (r : Regs p) (d : Word) : (appendKey r d).stride = r.stride := by
  unfold appendKey; split <;> rfl
@[simp] theorem appendKey_pos (r : Regs p) (d : Word) : (appendKey r d).pos = r.pos := by
  unfold appendKey; split <;> rfl

/-! ### The invariant and each register update -/

/-- The control registers alone decide the invariant. -/
theorem Regs.ControlInv.of_control_eq {a b : Regs p} (ha : a.ControlInv) (hc : b.cfgValid = a.cfgValid)
    (hm : b.mode = a.mode) (hl : b.lanes = a.lanes) (hs : b.stride = a.stride) (hq : b.pos = a.pos) :
    b.ControlInv := by
  unfold Regs.ControlInv; rw [hc, hm, hl, hs, hq]; exact ha

theorem Regs.reset_controlInv : (Regs.reset p).ControlInv := by simp [Regs.ControlInv]

/-- KEY_WRITE keeps the invariant (R171). -/
theorem appendKey_controlInv {r : Regs p} (h : r.ControlInv) (d : Word) : (appendKey r d).ControlInv :=
  h.of_control_eq (by simp) (by simp) (by simp) (by simp) (by simp)

/-- CTR_WRITE keeps the invariant (R100). -/
theorem writeCtrWord_controlInv {r : Regs p} (h : r.ControlInv) (i : Fin p.lmax) (k : Nat) (x : BitVec p.cwb) :
    (writeCtrWord r i k x).ControlInv :=
  h.of_control_eq rfl rfl rfl rfl rfl

/-- IV_WRITE keeps the invariant (R153). -/
theorem writePrevChunk_controlInv {r : Regs p} (h : r.ControlInv) (i : Fin p.lmax) (c : Nat) (x : Word) :
    (writePrevChunk r i c x).ControlInv :=
  h.of_control_eq rfl rfl rfl rfl rfl

/-- A CREATE of a supported lane count establishes the invariant, whatever held before (R173). -/
theorem configure_controlInv (hp : p.Wf) (md : Mode) (dflt str1 : Bool) {l : Nat} (hl : l ∈ p.supportedL)
    (r : Regs p) : (configure md dflt str1 l r).ControlInv := by
  have hlanes : (BitVec.ofNat 8 l).toNat = l := by
    rw [BitVec.toNat_ofNat, Nat.mod_eq_of_lt (supported_bounds hp hl).2.2]
  refine ⟨by simp, fun _ => ⟨?supported, ?stride, ?pos⟩⟩
  case supported => rwa [configure_lanes, hlanes]
  case stride => cases str1 <;> simp
  case pos => rw [configure_pos, configure_lanes, hlanes]

/-- NEXT_WORD's refill and step of the cursor keep the invariant (R124). -/
theorem nextWord_controlInv (hp : p.Wf) {r : Regs p} (h : r.ControlInv) (hc : r.cfgValid = true) :
    ({ refillIfExhausted r with pos := (refillIfExhausted r).pos + 1 } : Regs p).ControlInv := by
  obtain ⟨hl, hs, hpos⟩ := h.2 hc
  have hlt : (refillIfExhausted r).pos < bufLen r := refillIfExhausted_pos_lt hpos (bufLen_pos hp hl)
  refine ⟨by simp [hc], fun _ => ⟨?supported, ?stride, ?pos⟩⟩
  case supported => simpa using hl
  case stride => simpa using hs
  case pos => simpa [bufLen] using hlt

/-! ### Commands and steps -/

/-- Every command that goes on keeps the invariant of the control registers. -/
theorem exec_keeps_controlInv {i : Instr} {s t : State} (hp : s.params.Wf) (hs : s.regs.ControlInv)
    (h : exec i s = .next t) : t.regs.ControlInv := by
  obtain ⟨_, _, rfl⟩ | ⟨_, rfl⟩ | ⟨din, _, _, rfl⟩ | ⟨lane, k, din, _, _, _, _, rfl⟩ |
    ⟨lane, c, din, _, _, _, _, rfl⟩ | ⟨_, dflt, str1, l, md, _, _, _, hl, _, _, rfl⟩ | ⟨_, _, hc, rfl⟩ |
    ⟨_, rfl⟩ := exec_cases i s t h
  · exact hs
  · exact hs
  · exact appendKey_controlInv hs din
  · exact writeCtrWord_controlInv hs _ k _
  · exact writePrevChunk_controlInv hs _ c din
  · exact configure_controlInv hp md dflt str1 hl s.regs
  · exact nextWord_controlInv hp hs hc
  · exact Regs.reset_controlInv

/-- Settles O11: a step changes no register, resets them all, or is a command that keeps the invariant. -/
theorem stepKeepsTheControlInvariant : Obligations.StepKeepsTheControlInvariant := by
  intro s t hp hs h
  obtain ⟨_, _, rfl, _⟩ | ⟨_, rfl⟩ | ⟨_, rest, i, _, _, hexec⟩ := step_cases s t h
  · exact hs
  · exact Regs.reset_controlInv
  · exact exec_keeps_controlInv (s := { s with inputs := rest }) hp hs hexec

end Sys2Proof.Machine
end

section
/-! PROOF. What is stored where (R52 to R55, R68). A word of a list of 32-bit digits is a slice of their number, so a
key word is a slice of KeyVec. A lane's slots are its own, because a slot is a number written with the two digits lane
and word; so what a run of lane stores leaves in a slot does not depend on the order of the lanes. -/

namespace Sys2Proof.Machine

variable {p : Params}

/-! ### Key words and chunks -/

/-- The number of n words fits n times 32 bits. -/
theorem wordsToNat_lt (xs : List Word) : wordsToNat xs < 2 ^ (32 * xs.length) := by
  induction xs with
  | nil => simp [wordsToNat]
  | cons x xs ih =>
    have hx : x.toNat < 2 ^ 32 := x.isLt
    rw [wordsToNat, List.length_cons, Nat.mul_succ, Nat.pow_add]
    omega

/-- Digit `k` of the number of a list of words is word `k`. -/
theorem wordsToNat_digit (xs : List Word) (k : Nat) (hk : k < xs.length) :
    wordsToNat xs / 2 ^ (32 * k) % 2 ^ 32 = xs[k].toNat := by
  induction xs generalizing k with
  | nil => cases hk
  | cons x xs ih =>
    have hx : x.toNat < 2 ^ 32 := x.isLt
    cases k with
    | zero => simp only [wordsToNat, List.getElem_cons_zero]; omega
    | succ k =>
      have htail : wordsToNat (x :: xs) / 2 ^ 32 = wordsToNat xs := by rw [wordsToNat]; omega
      rw [Nat.mul_succ, Nat.add_comm, Nat.pow_add, ← Nat.div_div_eq_div_mul, htail]
      exact ih k (Nat.lt_of_succ_lt_succ hk)

/-- KeyVec as a number: no key word is cut off (R55). -/
theorem keyVec_toNat (r : Regs p) : (keyVec r).toNat = wordsToNat r.key.toList := by
  rw [keyVec, BitVec.toNat_ofNat, Nat.mod_eq_of_lt]
  simpa using wordsToNat_lt r.key.toList

/-- Key word `k` is bits [32k+31 : 32k] of KeyVec (R55). -/
theorem getBits_keyVec (r : Regs p) (k : Nat) (hk : k < p.keylen) : getBits (keyVec r) (32 * k) 32 = r.key[k] := by
  apply BitVec.eq_of_toNat_eq
  rw [toNat_getBits, keyVec_toNat, wordsToNat_digit r.key.toList k (by simpa using hk), Vector.getElem_toList]

/-- What IV_WRITE leaves in the lane it names. -/
theorem writePrevChunk_prev_same (r : Regs p) (lane : Fin p.lmax) (c : Nat) (x : Word) :
    (writePrevChunk r lane c x).prev[lane] = setChunk r.prev[lane] c x := by
  simp [writePrevChunk]

/-- Settles O38: a key word is a digit of KeyVec, and a chunk is the slice an IV_WRITE puts. -/
theorem keyWordsAndChunksAreSlices : Obligations.KeyWordsAndChunksAreSlices := by
  intro p r
  refine ⟨getBits_keyVec r, fun lane c x hc => ?_⟩
  rw [writePrevChunk_prev_same, setChunk, getBits_putBits_same]
  omega

/-! ### A lane's slots are its own (R121) -/

/-- A number `n * b + d` with the last digit `d` below the base `b` determines `n` and `d`. -/
theorem mul_add_digit_inj {b n d n' d' : Nat} (hd : d < b) (hd' : d' < b) (h : n * b + d = n' * b + d') :
    n = n' ∧ d = d' := by
  have hb : 0 < b := by omega
  have split {m e : Nat} (he : e < b) : (m * b + e) / b = m ∧ (m * b + e) % b = e :=
    (Nat.div_mod_unique hb).2 ⟨by ring, he⟩
  obtain ⟨hdiv, hmod⟩ := split (m := n) hd
  obtain ⟨hdiv', hmod'⟩ := split (m := n') hd'
  exact ⟨hdiv.symm.trans (h ▸ hdiv'), hmod.symm.trans (h ▸ hmod')⟩

/-- Two words of active lanes share a slot only if they are the same word of the same lane (R121). -/
theorem slot_inj {l i j i' j' : Nat} (hi : i < l) (hj : j < p.wpb) (hi' : i' < l) (hj' : j' < p.wpb)
    (h : slot p l i j = slot p l i' j') : i = i' ∧ j = j' := by
  unfold slot at h
  split at h
  · exact mul_add_digit_inj hj hj' h
  · exact (mul_add_digit_inj hi hi' h).symm

/-! ### What a lane's block depends on, and what a run of stores leaves -/

/-- A lane's input depends on the mode and on its own counter and prev block (R150). -/
theorem inputMux_congr {a b : Regs p} {i : Fin p.lmax} (hm : a.mode = b.mode) (hc : a.ctr[i] = b.ctr[i])
    (hp : a.prev[i] = b.prev[i]) : inputMux a i = inputMux b i := by
  unfold inputMux; rw [hm, hc, hp]

/-- A lane's block depends on its input and the key (R68). -/
theorem outBlock_congr {a b : Regs p} {i : Fin p.lmax} (hk : a.key = b.key) (hin : inputMux a i = inputMux b i) :
    outBlock a i = outBlock b i := by
  unfold outBlock; rw [keyVec_congr hk, hin]

/-- A word that a run of stores of active lanes gives a slot stands there, whatever the order of the run. -/
theorem storeLanes_buf_at (out : Fin p.lmax → BitVec p.bw) (order : List (Fin p.lmax)) (r : Regs p)
    (hact : ∀ k ∈ order, k.val < r.lanes.toNat) {i : Fin p.lmax} (hi : i ∈ order) {j : Nat} (hj : j < p.wpb)
    (hn : slot p r.lanes.toNat i.val j < p.nmax) :
    (order.foldl (storeLane out) r).buf[slot p r.lanes.toNat i.val j]? = some (blockword p (out i) j) := by
  induction order generalizing r with
  | nil => cases hi
  | cons k o ih =>
    rw [List.foldl_cons]
    have hlane : i.val < r.lanes.toNat := hact i hi
    have hrest : ∀ m ∈ o, m.val < r.lanes.toNat := fun m hm => hact m (List.mem_cons_of_mem _ hm)
    by_cases hio : i ∈ o
    case pos => simpa using ih (storeLane out r k) (by simpa using hrest) hio (by simpa using hn)
    case neg =>
      obtain rfl : i = k := (List.mem_cons.1 hi).resolve_right hio
      rw [storeLanes_buf_other, storeLane_buf]
      · exact storeBlock_at r i (out i) j hj hn fun m hm e => (slot_inj hlane hm hlane hj e).2
      · intro m hm j' hj' e
        rw [storeLane_lanes] at e
        exact hio (Fin.ext (slot_inj (hrest m hm) hj' hlane hj e).1 ▸ hm)

/-- Runs of stores of the same active lanes leave the same buffer. -/
theorem storeLanes_buf_congr (out : Fin p.lmax → BitVec p.bw) {o o' : List (Fin p.lmax)} (r : Regs p)
    (hact : ∀ k ∈ o, k.val < r.lanes.toNat) (hsame : ∀ k, k ∈ o ↔ k ∈ o') :
    (o.foldl (storeLane out) r).buf = (o'.foldl (storeLane out) r).buf := by
  apply Vector.ext
  intro q hq
  rw [← Option.some_inj, ← Vector.getElem?_eq_getElem hq, ← Vector.getElem?_eq_getElem hq]
  by_cases hslot : ∃ i ∈ o, ∃ j, j < p.wpb ∧ slot p r.lanes.toNat i.val j = q
  case pos =>
    obtain ⟨i, hi, j, hj, rfl⟩ := hslot
    have hact' : ∀ k ∈ o', k.val < r.lanes.toNat := fun k hk => hact k ((hsame k).2 hk)
    rw [storeLanes_buf_at out o r hact hi hj hq, storeLanes_buf_at out o' r hact' ((hsame i).1 hi) hj hq]
  case neg =>
    have hother : ∀ i ∈ o, ∀ j, j < p.wpb → slot p r.lanes.toNat i.val j ≠ q :=
      fun i hi j hj e => hslot ⟨i, hi, j, hj, e⟩
    rw [storeLanes_buf_other out o r q hother,
      storeLanes_buf_other out o' r q fun i hi => hother i ((hsame i).2 hi)]

/-- Runs of stores of the same lanes leave the same prev blocks. -/
theorem storeLanes_prev_congr (out : Fin p.lmax → BitVec p.bw) {o o' : List (Fin p.lmax)} (r : Regs p)
    (hsame : ∀ k, k ∈ o ↔ k ∈ o') : (o.foldl (storeLane out) r).prev = (o'.foldl (storeLane out) r).prev := by
  have hlane (k : Fin p.lmax) : (o.foldl (storeLane out) r).prev[k] = (o'.foldl (storeLane out) r).prev[k] := by
    simp only [storeLanes_prev, hsame]
  exact Vector.ext fun k hk => hlane ⟨k, hk⟩

/-- A refill depends on which active lanes it stores, not on their order (R68). -/
theorem refillIn_congr {o o' : List (Fin p.lmax)} {r : Regs p} (hact : ∀ k ∈ o, k.val < r.lanes.toNat)
    (hsame : ∀ k, k ∈ o ↔ k ∈ o') : refillIn o r = refillIn o' r := by
  rw [refillIn_eq, refillIn_eq, storeLanes_buf_congr _ r hact hsame, storeLanes_prev_congr _ r hsame]

/-- Settles O40: the slots of different lanes do not meet, so a refill depends on the set of its lanes only. -/
theorem laneOrderCannotMatter : Obligations.LaneOrderCannotMatter := by
  intro p r
  refine ⟨?block, fun out i => ⟨storeLane_eq r i out, ?buf, ?prev⟩, ?order⟩
  case block => exact fun a i hm hk hc hp => outBlock_congr hk (inputMux_congr hm hc hp)
  case buf =>
    intro q hq hne
    simpa [hq] using storeBlock_other r i (out i) q hne
  case prev =>
    intro k hk
    rw [storeLane_prev, if_neg fun h => hk h.2]
  case order =>
    intro order hperm
    exact refillIn_congr (fun k hk => (mem_activeLanes r k).1 (hperm.subset hk)) fun k => hperm.mem_iff

end Sys2Proof.Machine
end

section
/-! PROOF. The opcode table selects (R72 to R78). A word matches the row of an opcode exactly when its OP field is that
opcode and the row's must-be-zero fields are 0, so at most one row is matched, a matched row gives its command, and a
word is illegal exactly when OP has no row or its row's fields are not all 0. -/

namespace Sys2Proof

/-- The must-be-zero fields of the command with this opcode are 0 (R72, R73). -/
def MustBeZeroClear (op : Nat) (w : Word) : Prop :=
  match op with
  | 2 | 3 => field w 4 4 = 0 ∧ field w 24 8 = 0
  | 4 => field w 16 8 = 0 ∧ field w 24 8 = 0
  | _ => field w 4 4 = 0 ∧ field w 8 8 = 0 ∧ field w 16 8 = 0 ∧ field w 24 8 = 0

/-! ### The rows of the table (R74) -/

section Row
variable {n : Nat} {row : OpcodeRow}

/-- The opcodes with a row are 0..6. -/
theorem exists_rowOf_iff : (∃ row, rowOf n = some row) ↔ n < 7 := by
  constructor
  case mp =>
    rintro ⟨row, h⟩
    match n, h with
    | 0, _ | 1, _ | 2, _ | 3, _ | 4, _ | 5, _ | 6, _ => decide
  case mpr =>
    intro h
    match n, h with
    | 0, _ | 1, _ | 2, _ | 3, _ | 4, _ | 5, _ | 6, _ => exact ⟨_, rfl⟩

/-- What match and mask of a row test: the opcode, and that its must-be-zero fields are 0. -/
theorem and_mask_iff (h : rowOf n = some row) (w : Word) :
    w &&& row.mask = row.pattern ↔ field w 0 4 = n ∧ MustBeZeroClear n w := by
  match n, h with
  | 0, rfl => exact and_fullMask w 0 (by decide)
  | 1, rfl => exact and_fullMask w 1 (by decide)
  | 2, rfl => exact and_indexMask w 2 (by decide)
  | 3, rfl => exact and_indexMask w 3 (by decide)
  | 4, rfl => exact and_createMask w 4 (by decide)
  | 5, rfl => exact and_fullMask w 5 (by decide)
  | 6, rfl => exact and_fullMask w 6 (by decide)

/-- A row is found again under its mnemonic, so no two rows share one. -/
theorem rowNamed_mnemonic (h : rowOf n = some row) : rowNamed row.mnemonic = some (n, row) := by
  match n, h with
  | 0, rfl | 1, rfl | 2, rfl | 3, rfl | 4, rfl | 5, rfl | 6, rfl => rfl

/-- The command read from a word of an opcode's row is the one the row names. -/
theorem operandsOf_mnemonic (h : rowOf n = some row) (c : Command) :
    (operandsOf n c).mnemonic? = some row.mnemonic := by
  match n, h with
  | 0, rfl | 1, rfl | 2, rfl | 3, rfl | 4, rfl | 5, rfl | 6, rfl => rfl

end Row

/-! ### What the decoder answers (R75) -/

section Decode
variable {c : Command} {n : Nat} {row : OpcodeRow}

/-- A word that matches a row decodes to the command with that row's opcode. -/
theorem decode_of_match (h : rowOf n = some row) (hw : c.cmd &&& row.mask = row.pattern) :
    decode c = operandsOf n c := by
  rw [decode_of_op c n ((and_mask_iff h c.cmd).1 hw).1, h]
  exact if_pos hw

/-- A word is illegal, or matches the row of its opcode. -/
theorem decode_cases (c : Command) : (∃ why, decode c = .illegal why) ∨
    ∃ row, rowOf (field c.cmd 0 4) = some row ∧ c.cmd &&& row.mask = row.pattern := by
  unfold decode
  split
  case h_1 => exact .inl ⟨_, rfl⟩
  case h_2 row h =>
    by_cases hw : c.cmd &&& row.mask = row.pattern
    case pos => exact .inr ⟨row, h, hw⟩
    case neg => exact .inl ⟨_, if_neg hw⟩

/-- A word that matches a row is not illegal. -/
theorem decode_ne_illegal_of_match (h : rowOf n = some row) (hw : c.cmd &&& row.mask = row.pattern)
    (why : IllegalWord) : decode c ≠ .illegal why := by
  intro hd
  have hm := operandsOf_mnemonic h c
  rw [← decode_of_match h hw, hd] at hm
  cases hm

/-- A row's command is decoded from exactly the words that match the row. -/
theorem decode_mnemonic_iff (h : rowOf n = some row) (c : Command) :
    (decode c).mnemonic? = some row.mnemonic ↔ c.cmd &&& row.mask = row.pattern := by
  constructor
  case mpr => intro hw; rw [decode_of_match h hw, operandsOf_mnemonic h]
  case mp =>
    intro hm
    obtain ⟨why, hd⟩ | ⟨row', h', hw'⟩ := decode_cases c
    case inl => rw [hd] at hm; cases hm
    case inr =>
      rw [decode_of_match h' hw', operandsOf_mnemonic h'] at hm
      have hname : row'.mnemonic = row.mnemonic := Option.some.inj hm
      have hfound := rowNamed_mnemonic h'
      rw [hname, rowNamed_mnemonic h] at hfound
      cases hfound
      exact hw'

/-- A word is illegal when its opcode has no row, or a must-be-zero field of the command it names is not 0 (R78). -/
theorem decode_illegal_iff (c : Command) : (∃ why, decode c = .illegal why) ↔
    7 ≤ field c.cmd 0 4 ∨ ¬ MustBeZeroClear (field c.cmd 0 4) c.cmd := by
  rw [← not_lt, ← not_and_or, ← exists_rowOf_iff]
  constructor
  case mp =>
    rintro ⟨why, hd⟩ ⟨⟨row, h⟩, hz⟩
    exact decode_ne_illegal_of_match h ((and_mask_iff h c.cmd).2 ⟨rfl, hz⟩) why hd
  case mpr =>
    intro hno
    refine (decode_cases c).resolve_right ?_
    rintro ⟨row, h, hw⟩
    exact hno ⟨⟨row, h⟩, ((and_mask_iff h c.cmd).1 hw).2⟩

end Decode

section Operands
variable {w : Word} {a b mode lanes : Nat} {dflt str1 : Bool}

theorem decode_ctrWrite_of_fields (hw : w &&& 0xFF0000FF = 0x00000002) (ha : field w 8 8 = a)
    (hb : field w 16 8 = b) (din : Word) : decode ⟨w, din⟩ = .instr (.ctrWrite a b din) := by
  subst ha hb; exact decode_of_match (n := 2) rfl hw

theorem decode_ivWrite_of_fields (hw : w &&& 0xFF0000FF = 0x00000003) (ha : field w 8 8 = a)
    (hb : field w 16 8 = b) (din : Word) : decode ⟨w, din⟩ = .instr (.ivWrite a b din) := by
  subst ha hb; exact decode_of_match (n := 3) rfl hw

theorem decode_create_of_fields (hw : w &&& 0xFFFF000F = 0x00000004) (hm : field w 4 2 = mode)
    (hd : flagBit w 6 = dflt) (hs : flagBit w 7 = str1) (hl : field w 8 8 = lanes) (din : Word) :
    decode ⟨w, din⟩ = .instr (.create mode dflt str1 lanes) := by
  subst hm hd hs hl; exact decode_of_match (n := 4) rfl hw

end Operands

/-- Executing an illegal word only answers ERR_ILLEGAL with DOUT = 0 (R78). -/
theorem Machine.execute_illegal {c : Command} {why : IllegalWord} (h : decode c = .illegal why) (s : Machine.State) :
    Machine.execute c s = .next (s.raise .errIllegal) := by
  unfold Machine.execute; rw [h]

/-! ### The statements -/

/-- Settles O2: each row's command by the rule for rows, and a matched row's opcode is the word's own. -/
theorem matchAndMaskSelectTheCommand : Obligations.MatchAndMaskSelectTheCommand := by
  refine ⟨fun c => ⟨decode_mnemonic_iff (n := 0) rfl c, decode_mnemonic_iff (n := 1) rfl c,
    decode_mnemonic_iff (n := 2) rfl c, decode_mnemonic_iff (n := 3) rfl c, decode_mnemonic_iff (n := 4) rfl c,
    decode_mnemonic_iff (n := 5) rfl c, decode_mnemonic_iff (n := 6) rfl c⟩, ?_⟩
  intro w op op' row row' h h' hw hw'
  have hop : op = op' := ((and_mask_iff h w).1 hw).1.symm.trans ((and_mask_iff h' w).1 hw').1
  rw [← hop, h] at h'
  exact Option.some.inj h'

/-- Settles O3: the must-be-zero fields of the command that OP names, opcode by opcode. -/
theorem illegalWordsCompleteWithErrIllegal : Obligations.IllegalWordsCompleteWithErrIllegal := by
  intro c s
  refine ⟨?fields, fun ⟨_, h⟩ => Machine.execute_illegal h s⟩
  rw [decode_illegal_iff]
  unfold MustBeZeroClear
  split
  case h_1 | h_2 | h_3 => omega
  case h_4 h2 h3 h4 =>
    have hop : field c.cmd 0 4 ≠ 2 ∧ field c.cmd 0 4 ≠ 3 ∧ field c.cmd 0 4 ≠ 4 := ⟨h2, h3, h4⟩
    omega

/-- Settles O1: each word matches its command's row, whose operands are the word's fields. -/
theorem workedEncodingsDecode : Obligations.WorkedEncodingsDecode := by
  intro din
  refine ⟨?ctr2, ?cbc2, ?ctr1, ?cbc4, ?ctrWrite, ?ivWrite, ?nextWord, rfl, rfl, rfl, rfl, rfl, rfl, rfl⟩
  case ctr2 | cbc2 | ctr1 | cbc4 =>
    exact decode_create_of_fields (by decide) (by decide) (by decide) (by decide) (by decide) din
  case ctrWrite => exact decode_ctrWrite_of_fields (by decide) (by decide) (by decide) din
  case ivWrite => exact decode_ivWrite_of_fields (by decide) (by decide) (by decide) din
  case nextWord =>
    exact decode_of_match (n := 5) rfl (by decide : (0x00000005 : Word) &&& 0xFFFFFFFF = 0x00000005)

end Sys2Proof
end

section
/-! PROOF. The counter bank is modular arithmetic (40_counter_bank.md). A word of the ripple and its carry hold the word
plus the carry in, so the ripple from word `k` on adds `2^(CWB*k)` times the carry, and drops what passes 2^M. -/

namespace Sys2Proof.Machine

variable {p : Params}

/-! ### One lane's ADVANCE (R103, R105) -/

/-- A word and a carry in that fit CWB bits add up without loss in the CWB+1 bits of R103. -/
theorem toNat_word_add_carry {cwb : Nat} (x : BitVec cwb) {carry : BitVec (cwb + 1)} (hc : carry.toNat < 2 ^ cwb) :
    (x.setWidth (cwb + 1) + carry).toNat = x.toNat + carry.toNat := by
  have hpow : 2 ^ (cwb + 1) = 2 ^ cwb * 2 := pow_succ 2 cwb
  have hx : x.toNat < 2 ^ cwb := x.isLt
  rw [BitVec.toNat_add, BitVec.toNat_setWidth, Nat.mod_eq_of_lt (by omega : x.toNat < 2 ^ (cwb + 1)),
    Nat.mod_eq_of_lt (by omega)]

/-- A word written into a counter, as a number: the old word goes, the new one comes. -/
theorem toNat_setCtrWord {n cwb : Nat} (c : BitVec n) (k : Nat) (x : BitVec cwb) (h : cwb * (k + 1) ≤ n) :
    (setCtrWord c k x).toNat + 2 ^ (cwb * k) * (ctrWord cwb c k).toNat = c.toNat + 2 ^ (cwb * k) * x.toNat :=
  toNat_putBits c (cwb * k) x (by rwa [Nat.mul_succ] at h)

/-- The carry out of a word is 0 or 1. -/
theorem div_two_pow_lt_two {cwb : Nat} (s : BitVec (cwb + 1)) : s.toNat / 2 ^ cwb < 2 :=
  Nat.div_lt_of_lt_mul (by rw [← pow_succ]; exact s.isLt)

/-- The carry out of a word of R103, as a number. -/
theorem toNat_carryOut {cwb : Nat} (s : BitVec (cwb + 1)) :
    ((getBits s cwb 1).setWidth (cwb + 1)).toNat = s.toNat / 2 ^ cwb := by
  have hlt : s.toNat / 2 ^ cwb < 2 ^ 1 := div_two_pow_lt_two s
  rw [BitVec.toNat_setWidth, toNat_getBits, Nat.mod_eq_of_lt hlt, Nat.mod_eq_of_lt]
  exact hlt.trans_le (Nat.pow_le_pow_right (by decide) (by omega))

/-- The ripple over the last `n` words, from word `k` on, adds the carry at word `k` modulo 2^M. -/
theorem rippleFrom_toNat {m cwb : Nat} (hcwb : 0 < cwb) (n k : Nat) (c : BitVec m) (carry : BitVec (cwb + 1))
    (hm : cwb * (k + n) = m) (hc : carry.toNat < 2 ^ cwb) :
    (rippleFrom cwb n k c carry).toNat = (c.toNat + 2 ^ (cwb * k) * carry.toNat) % 2 ^ m := by
  induction n generalizing k c carry with
  | zero =>
    rw [Nat.add_zero] at hm
    rw [rippleFrom, hm, Nat.add_mul_mod_self_left, Nat.mod_eq_of_lt c.isLt]
  | succ n ih =>
    have hsum := toNat_word_add_carry (ctrWord cwb c k) hc
    rw [rippleFrom]
    generalize (ctrWord cwb c k).setWidth (cwb + 1) + carry = s at hsum ⊢
    have hout : s.toNat / 2 ^ cwb < 2 ^ cwb :=
      (div_two_pow_lt_two s).trans_le (Nat.le_self_pow (Nat.ne_of_gt hcwb) 2)
    have hword := toNat_setCtrWord c k (s.setWidth cwb) (hm ▸ Nat.mul_le_mul_left cwb (by omega))
    rw [BitVec.toNat_setWidth] at hword
    rw [ih (k + 1) _ _ (by rw [← hm]; ring) (by rwa [toNat_carryOut]), toNat_carryOut]
    congr 1
    apply Nat.add_right_cancel (m := 2 ^ (cwb * k) * (ctrWord cwb c k).toNat)
    calc (setCtrWord c k (s.setWidth cwb)).toNat + 2 ^ (cwb * (k + 1)) * (s.toNat / 2 ^ cwb)
          + 2 ^ (cwb * k) * (ctrWord cwb c k).toNat
        = c.toNat + 2 ^ (cwb * k) * (s.toNat % 2 ^ cwb + 2 ^ cwb * (s.toNat / 2 ^ cwb)) := by
          rw [Nat.add_right_comm, hword, Nat.mul_succ, pow_add]; ring
      _ = c.toNat + 2 ^ (cwb * k) * carry.toNat + 2 ^ (cwb * k) * (ctrWord cwb c k).toNat := by
          rw [Nat.mod_add_div, hsum]; ring

/-- The 8-bit stride, and a lane number, fit the low word of a counter (R104). -/
theorem two_pow_eight_le_word (hp : p.Wf) : 2 ^ 8 ≤ 2 ^ p.cwb := by
  obtain ⟨-, -, -, ⟨hcwb, -⟩, -⟩ := hp
  exact Nat.pow_le_pow_right (by decide) hcwb

/-- A counter is at least a word wide (R8). -/
theorem word_le_counter (hp : p.Wf) : 2 ^ p.cwb ≤ 2 ^ p.m := by
  obtain ⟨-, -, ⟨hw, -⟩, -⟩ := hp
  exact Nat.pow_le_pow_right (by decide) (Nat.le_mul_of_pos_right _ hw)

/-- One lane's ADVANCE adds the stride modulo 2^M (R105, R107). -/
theorem advanceCounter_toNat (hp : p.Wf) (stride : BitVec 8) (c : BitVec p.m) :
    (advanceCounter p stride c).toNat = (c.toNat + stride.toNat) % 2 ^ p.m := by
  have hword := two_pow_eight_le_word hp
  have hs : stride.toNat < 2 ^ 8 := stride.isLt
  have hcarry : (stride.setWidth (p.cwb + 1)).toNat = stride.toNat := by
    rw [BitVec.toNat_setWidth, Nat.mod_eq_of_lt]; rw [pow_succ]; omega
  obtain ⟨-, -, -, ⟨hcwb, -⟩, -⟩ := hp
  rw [advanceCounter, rippleFrom_toNat (by omega) p.w 0 c _ (by rw [Nat.zero_add]) (by omega), hcarry, Nat.mul_zero,
    pow_zero, Nat.one_mul]

/-- What ADVANCE leaves in an active lane, as a number. -/
theorem advance_ctr_toNat (hp : p.Wf) (r : Regs p) (i : Nat) (hi : i < p.lmax) (hl : i < r.lanes.toNat) :
    (advance r).ctr[i].toNat = (r.ctr[i].toNat + r.stride.toNat) % 2 ^ p.m := by
  rw [advance_ctr, if_pos hl, advanceCounter_toNat hp]

/-- Settles O32: the sum at M+1 bits has room for counter and stride, and its truncation is their sum modulo 2^M. -/
theorem advanceIsModularAddition : Obligations.AdvanceIsModularAddition := by
  intro p r hp i hi
  refine ⟨fun hl => ?active, fun hl => ?idle⟩
  case active =>
    have hs : r.stride.toNat < 2 ^ 8 := r.stride.isLt
    have hc : r.ctr[i].toNat < 2 ^ p.m := r.ctr[i].isLt
    have h8 : 2 ^ 8 ≤ 2 ^ p.m := (two_pow_eight_le_word hp).trans (word_le_counter hp)
    have hroom : 2 ^ (p.m + 1) = 2 ^ p.m * 2 := pow_succ 2 p.m
    apply BitVec.eq_of_toNat_eq
    rw [advance_ctr_toNat hp r i hi hl, BitVec.toNat_setWidth, BitVec.toNat_add, BitVec.toNat_setWidth,
      BitVec.toNat_setWidth, Nat.mod_eq_of_lt (by omega : r.ctr[i].toNat < 2 ^ (p.m + 1)),
      Nat.mod_eq_of_lt (by omega : r.stride.toNat < 2 ^ (p.m + 1)),
      Nat.mod_eq_of_lt (by omega : r.ctr[i].toNat + r.stride.toNat < 2 ^ (p.m + 1))]
  case idle => rw [advance_ctr, if_neg (by omega)]

/-- Settles O33: a lane's new counter is a function of its counter and the stride. -/
theorem carriesStayInTheirLane : Obligations.CarriesStayInTheirLane := by
  intro p a b hp
  refine ⟨rfl, fun i hi ha hb hs => ⟨advance_ctr_toNat hp a i hi ha, fun hc => ?own⟩⟩
  case own => rw [advance_ctr, advance_ctr, if_pos ha, if_pos hb, hs, hc]

/-! ### Many ADVANCEs (R108) -/

/-- An active lane's counter after `n` ADVANCEs. -/
theorem advances_ctr_toNat (hp : p.Wf) (r : Regs p) (n i : Nat) (hi : i < p.lmax) (hl : i < r.lanes.toNat) :
    (advances n r).ctr[i].toNat = (r.ctr[i].toNat + n * r.stride.toNat) % 2 ^ p.m := by
  induction n with
  | zero => rw [Nat.zero_mul, Nat.add_zero, Nat.mod_eq_of_lt r.ctr[i].isLt]; rfl
  | succ n ih =>
    obtain ⟨hlanes, hstride⟩ := advances_frame n r
    rw [advances_succ, advance_ctr_toNat hp _ i hi (hlanes ▸ hl), ih, hstride, Nat.mod_add_mod, Nat.succ_mul,
      Nat.add_assoc]

/-- The period P of a counter of M bits under a stride (R108). -/
def counterPeriod (m s : Nat) : Nat := 2 ^ m / Nat.gcd s (2 ^ m)

/-- The period divides `n` exactly when `n` strides are a multiple of 2^M. -/
theorem counterPeriod_dvd_iff (m s n : Nat) : counterPeriod m s ∣ n ↔ 2 ^ m ∣ n * s := by
  have hpos : 0 < Nat.gcd s (2 ^ m) := Nat.gcd_pos_of_pos_right s (Nat.two_pow_pos m)
  rw [counterPeriod, Nat.div_dvd_iff_dvd_mul (Nat.gcd_dvd_right s _) hpos, Nat.gcd_comm, Nat.dvd_gcd_mul_iff_dvd_mul,
    Nat.mul_comm]

/-- An active lane is back at its initial counter after exactly the multiples of the period (R108). -/
theorem advances_ctr_eq_iff (hp : p.Wf) (r : Regs p) (n i : Nat) (hi : i < p.lmax) (hl : i < r.lanes.toNat) :
    (advances n r).ctr[i] = r.ctr[i] ↔ counterPeriod p.m r.stride.toNat ∣ n := by
  rw [← BitVec.toNat_inj, advances_ctr_toNat hp r n i hi hl, counterPeriod_dvd_iff]
  conv_lhs => rw [← Nat.mod_eq_of_lt r.ctr[i].isLt, Nat.mod_add_mod]
  exact Nat.add_modEq_left_iff

/-- An odd stride goes through the whole counter space (R108). -/
theorem counterPeriod_of_odd (m : Nat) {s : Nat} (h : s % 2 = 1) : counterPeriod m s = 2 ^ m := by
  have hcop : Nat.Coprime s (2 ^ m) := (Nat.coprime_two_right.2 (Nat.odd_iff.2 h)).pow_right m
  rw [counterPeriod, hcop, Nat.div_one]

/-- A power of two that fits the counter divides its space evenly (R108). -/
theorem counterPeriod_two_pow {m k : Nat} (h : k ≤ m) : counterPeriod m (2 ^ k) = 2 ^ m / 2 ^ k := by
  rw [counterPeriod, Nat.gcd_eq_left (pow_dvd_pow 2 h)]

/-! ### What CREATE leaves in the bank (R102, R104) -/

/-- A lane number fits the low word of a counter. -/
theorem lane_lt_word (hp : p.Wf) {i : Nat} (hi : i < p.lmax) : i < 2 ^ p.cwb := by
  have hword := two_pow_eight_le_word hp
  obtain ⟨⟨-, hmax⟩, -⟩ := hp
  omega

/-- A default-layout counter as a number: no bit of the lane number is cut off (R102). -/
theorem defaultLayout_ctr_toNat (hp : p.Wf) (l : Nat) (r : Regs p) {i : Nat} (hi : i < p.lmax) (hl : i < l) :
    (defaultLayout l r).ctr[i].toNat = i := by
  rw [defaultLayout_ctr, if_pos hl, BitVec.toNat_ofNat,
    Nat.mod_eq_of_lt ((lane_lt_word hp hi).trans_le (word_le_counter hp))]

/-- A supported lane count is not cut off by the 8-bit registers (R8). -/
theorem toNat_ofNat_lanes (hp : p.Wf) {l : Nat} (hl : l ∈ p.supportedL) : (BitVec.ofNat 8 l).toNat = l := by
  rw [BitVec.toNat_ofNat, Nat.mod_eq_of_lt (supported_bounds hp hl).2.2]

/-- A counter whose value fits its low word is that word, and its other words are 0. -/
theorem ctrWord_of_lt {m cwb : Nat} {c : BitVec m} {v : Nat} (hv : c.toNat = v) (h : v < 2 ^ cwb) :
    ctrWord cwb c 0 = BitVec.ofNat cwb v ∧ ∀ k, 0 < k → ctrWord cwb c k = 0 := by
  refine ⟨?low, fun k hk => ?high⟩
  case low =>
    apply BitVec.eq_of_toNat_eq
    rw [ctrWord, toNat_getBits, hv, BitVec.toNat_ofNat, Nat.mul_zero, pow_zero, Nat.div_one]
  case high =>
    have hword : v < 2 ^ (cwb * k) := h.trans_le (Nat.pow_le_pow_right (by decide) (Nat.le_mul_of_pos_right _ hk))
    apply BitVec.eq_of_toNat_eq
    rw [ctrWord, toNat_getBits, hv, Nat.div_eq_of_lt hword, Nat.zero_mod]; rfl

/-- A CREATE that answers OK has passed its checks and configured the core (R173). -/
theorem exec_create_complete {s : State} {mode l : Nat} {dflt str1 : Bool} {r : Regs s.params}
    (h : exec (.create mode dflt str1 l) s = .next (s.complete r 0)) :
    ∃ md, modeOf mode = some md ∧ l ≠ 0 ∧ l ∈ s.params.supportedL ∧ s.regs.keyCount = s.params.keylen ∧
      r = configure md dflt str1 l s.regs := by
  obtain ⟨st, hst, e⟩ | ⟨e, -⟩ | ⟨_, e, -⟩ | ⟨_, _, _, _, _, e, -⟩ | ⟨_, _, _, _, _, e, -⟩ |
    ⟨_, _, _, _, md, e, hm, h0, hl, hk, -, hs⟩ | ⟨_, e, -⟩ | ⟨e, -⟩ := exec_cases _ _ _ h
  · have hstatus : some (Status.ok, 0) = some (st, 0) := by simpa [observe] using congrArg observe e
    cases hstatus
    exact absurd rfl hst
  rotate_left 4
  · cases e
    exact ⟨md, hm, h0, hl, hk, by simpa using hs⟩
  all_goals cases e

/-- Settles O31: the registers are those of `configure`, and a lane number and the stride fit the low word. -/
theorem createLaysOutTheCountersAndTheStride : Obligations.CreateLaysOutTheCountersAndTheStride := by
  intro s mode l dflt str1 r hp _ h
  obtain ⟨md, -, -, hl, -, rfl⟩ := exec_create_complete h
  have hstride : (configure md dflt str1 l s.regs).stride.toNat = if str1 then 1 else l := by
    rw [configure_stride]; cases str1
    case false => exact toNat_ofNat_lanes hp hl
    case true => rfl
  refine ⟨fun i hi hd hil => ?laidOut, fun i hi hkept => ?kept, hstride, ?fits⟩
  case laidOut =>
    have hctr : (configure md dflt str1 l s.regs).ctr[i].toNat = i := by
      simp only [configure_ctr, hd]; exact defaultLayout_ctr_toNat hp l s.regs hi hil
    obtain ⟨hlow, hhigh⟩ := ctrWord_of_lt hctr (lane_lt_word hp hi)
    exact ⟨hlow, fun k hk _ => hhigh k hk, hctr⟩
  case kept =>
    simp only [configure_ctr]
    split
    case isTrue hd => rw [defaultLayout_ctr, if_neg (Nat.not_lt.2 (hkept.resolve_left (by simp [hd])))]
    case isFalse => rfl
  case fits => exact ((configure md dflt str1 l s.regs).stride.isLt).trans_le (two_pow_eight_le_word hp)

/-! ### The default layout does not collide before the wrap (R109) -/

/-- Refill `n` of a core created with the default layout and stride L uses the counter `i + n * L` (R109). -/
theorem refills_defaultLayout_ctr_toNat (hp : p.Wf) (md : Mode) {l : Nat} (hl : l ∈ p.supportedL) (r : Regs p)
    (n i : Nat) (hi : i < p.lmax) (hil : i < l) :
    (refills n (configure md true false l r)).ctr[i].toNat = (i + n * l) % 2 ^ p.m := by
  have hlanes : (configure md true false l r).lanes.toNat = l := toNat_ofNat_lanes hp hl
  have hstride : (configure md true false l r).stride.toNat = l := toNat_ofNat_lanes hp hl
  have hctr : (configure md true false l r).ctr[i].toNat = i := defaultLayout_ctr_toNat hp l r hi hil
  simp only [refills_ctr_eq_advances]
  rw [advances_ctr_toNat hp _ n i hi (by rwa [hlanes]), hstride, hctr]

/-- The counter of a lane below L in the first R refills lies below L * R. -/
theorem lane_add_mul_lt {n R i l : Nat} (hn : n < R) (hi : i < l) : i + n * l < l * R :=
  calc i + n * l < l * (n + 1) := by rw [Nat.mul_succ, Nat.mul_comm]; omega
    _ ≤ l * R := Nat.mul_le_mul_left l hn

/-- Settles O35: below the wrap, `i + n * L` is a number written with the digits refill and lane. -/
theorem defaultLayoutLanesDoNotCollideBeforeTheWrap : Obligations.DefaultLayoutLanesDoNotCollideBeforeTheWrap := by
  intro p md l r0 hp hl r
  obtain ⟨hl0, hlmax, -⟩ := supported_bounds hp hl
  have hctr := refills_defaultLayout_ctr_toNat hp md hl r0
  refine ⟨hctr, ?unchecked, fun R hR => ?_⟩
  case unchecked =>
    rintro s mode l' str1 rfl hc hm hl' hk
    have hpos : l' ≠ 0 := by have := supported_bounds hp hl'; omega
    exact ⟨_, exec_create hc (modeOf_lt hm) hpos hl' hk, rfl, by simp⟩
  have hwrap : l * R ≤ 2 ^ p.m := by rw [Nat.mul_comm]; exact (Nat.le_div_iff_mul_le hl0).1 hR
  have hval (n : Nat) (hn : n < R) (i : Nat) (hi : i < p.lmax) (hil : i < l) :
      (refills n r).ctr[i].toNat = i + n * l := by
    rw [hctr n i hi hil, Nat.mod_eq_of_lt ((lane_add_mul_lt hn hil).trans_le hwrap)]
  refine ⟨fun n hn i hi hil => ⟨hval n hn i hi hil, lane_add_mul_lt hn hil⟩, fun v hv => ?onto, ?inj⟩
  case onto =>
    have hil : v % l < l := Nat.mod_lt v hl0
    have hn : v / l < R := Nat.div_lt_of_lt_mul hv
    exact ⟨v / l, v % l, hil.trans_le hlmax, hn, hil, by rw [hval _ hn _ _ hil, Nat.mod_add_div']⟩
  case inj =>
    intro n n' i i' hi hi' hn hn' hil hil' e
    have hsame : i + n * l = i' + n' * l := by rw [← hval n hn i hi hil, ← hval n' hn' i' hi' hil', e]
    exact mul_add_digit_inj hil hil' (by rw [Nat.add_comm, hsame, Nat.add_comm])

end Sys2Proof.Machine
end

section
/-! PROOF. The word at the cursor (R124 to R126), and with it the period of the CTR keystream (R108). A refill does not
look at the cursor, so after `t + 1` reads from an exhausted buffer of N words the registers are those of `t / N + 1`
refills with the cursor behind word `t % N`, which is the word returned. In CTR mode the first N words of a refill
depend on the key and the active counters only, and these are back after a period of refills. -/

namespace Sys2Proof.Machine

variable {p : Params}

/-! ### A refill does not look at the cursor -/

/-- The registers with the cursor at `q`. -/
def Regs.atPos (r : Regs p) (q : Nat) : Regs p := { r with pos := q }

section AtPos
variable (r : Regs p) (q : Nat)

@[simp] theorem Regs.atPos_cfgValid : (r.atPos q).cfgValid = r.cfgValid := rfl
@[simp] theorem Regs.atPos_pos : (r.atPos q).pos = q := rfl
@[simp] theorem Regs.atPos_atPos (q' : Nat) : (r.atPos q).atPos q' = r.atPos q' := rfl
@[simp] theorem bufLen_atPos : bufLen (r.atPos q) = bufLen r := rfl

theorem storeBlock_atPos (i : Fin p.lmax) (out : BitVec p.bw) :
    storeBlock (r.atPos q) i out = (storeBlock r i out).atPos q := by
  unfold storeBlock
  exact List.foldl_hom (fun a : Regs p => a.atPos q) fun _ _ => rfl

theorem chainUpdate_atPos (i : Fin p.lmax) (out : BitVec p.bw) :
    chainUpdate (r.atPos q) i out = (chainUpdate r i out).atPos q := by
  obtain ⟨_, mode, _⟩ := r
  cases mode <;> rfl

theorem storeLane_atPos (out : Fin p.lmax → BitVec p.bw) (i : Fin p.lmax) :
    storeLane out (r.atPos q) i = (storeLane out r i).atPos q := by
  unfold storeLane
  rw [storeBlock_atPos, chainUpdate_atPos]

/-- A refill gives the same registers wherever the cursor stands (R120). -/
theorem refill_atPos : refill (r.atPos q) = refill r := by
  have hstores : (activeLanes r).foldl (storeLane (outBlock r)) (r.atPos q) =
      ((activeLanes r).foldl (storeLane (outBlock r)) r).atPos q :=
    List.foldl_hom (fun a => a.atPos q) fun a i => storeLane_atPos a q (outBlock r) i
  calc refill (r.atPos q) = (advance ((activeLanes r).foldl (storeLane (outBlock r)) (r.atPos q))).atPos 0 := rfl
    _ = refill r := by rw [hstores]; rfl

end AtPos

/-- A refill leaves the cursor at 0 (R120). -/
theorem refill_eq_atPos_zero (r : Regs p) : refill r = (refill r).atPos 0 := rfl

/-! ### The words of the stream (R125, R126) -/

/-- The buffer of the current configuration is not longer than the physical one (R8). -/
theorem bufLen_le_nmax {r : Regs p} (h : r.lanes.toNat ≤ p.lmax) : bufLen r ≤ p.nmax :=
  Nat.mul_le_mul_right p.wpb h

@[simp] theorem refills_bufLen (n : Nat) (r : Regs p) : bufLen (refills n r) = bufLen r := by
  obtain ⟨-, -, hlanes, -⟩ := refills_frame n r
  rw [bufLen, hlanes, bufLen]

/-- NEXT_WORD where its own refill, if any, leaves the cursor at `q`: it returns that word and goes on (R124). -/
theorem exec_nextWord_at {s : State} {x : Regs s.params} {q : Nat}
    (hx : refillIfExhausted s.regs = x.atPos q) (hc : s.regs.cfgValid = true) (hq : q < s.params.nmax) :
    exec .nextWord s = .next (s.complete (x.atPos (q + 1)) x.buf[q]) := by
  have h := exec_nextWord_of_lt hc (by rw [hx]; exact hq)
  simp only [hx] at h
  exact h

/-- An exhausted buffer is refilled first (R124). -/
theorem refillIfExhausted_of_exhausted {r : Regs p} (h : r.Exhausted) : refillIfExhausted r = refill r :=
  if_pos h.2

/-- With the cursor behind word `t % N` of refill `t / N`, NEXT_WORD refills first exactly if that was the last word,
and so comes to word `(t + 1) % N` of refill `(t + 1) / N` (R124). -/
theorem refillIfExhausted_behind (r : Regs p) (t : Nat) (hN : 0 < bufLen r) :
    refillIfExhausted ((refills (t / bufLen r + 1) r).atPos (t % bufLen r + 1)) =
      (refills ((t + 1) / bufLen r + 1) r).atPos ((t + 1) % bufLen r) := by
  have hsplit := Nat.mod_add_div t (bufLen r)
  have hlt : t % bufLen r < bufLen r := Nat.mod_lt t hN
  simp only [refillIfExhausted, bufLen_atPos, refills_bufLen, Regs.atPos_pos]
  split
  case isTrue h =>
    obtain ⟨hdiv, hmod⟩ : (t + 1) / bufLen r = t / bufLen r + 1 ∧ (t + 1) % bufLen r = 0 :=
      (Nat.div_mod_unique hN).2 ⟨by rw [Nat.mul_succ]; omega, hN⟩
    rw [hdiv, hmod, refill_atPos, refills_succ (t / bufLen r + 1), ← refill_eq_atPos_zero]
  case isFalse h =>
    obtain ⟨hdiv, hmod⟩ : (t + 1) / bufLen r = t / bufLen r ∧ (t + 1) % bufLen r = t % bufLen r + 1 :=
      (Nat.div_mod_unique hN).2 ⟨by omega, by omega⟩
    rw [hdiv, hmod]

/-- `t + 1` reads are `t` reads and one more. -/
theorem readWords_succ (t : Nat) : readWords (t + 1) = readWords t ++ [.nextWord] :=
  List.replicate_succ'

/-- From an exhausted buffer of N words, read number `t`, counted from 0, returns word `t % N` of refill `t / N`, and
leaves the registers of that refill with the cursor behind the word (R125, R126). -/
theorem runAll_readWords_succ {s : State} (hex : s.regs.Exhausted) (hN : 0 < bufLen s.regs)
    (hl : s.regs.lanes.toNat ≤ s.params.lmax) (t : Nat) (ht : t % bufLen s.regs < s.params.nmax) :
    runAll (readWords (t + 1)) s = some (s.complete
      ((refills (t / bufLen s.regs + 1) s.regs).atPos (t % bufLen s.regs + 1))
      (refills (t / bufLen s.regs + 1) s.regs).buf[t % bufLen s.regs]) := by
  induction t with
  | zero =>
    have hfirst : refillIfExhausted s.regs =
        (refills (0 / bufLen s.regs + 1) s.regs).atPos (0 % bufLen s.regs) := by
      rw [refillIfExhausted_of_exhausted hex, Nat.zero_div, Nat.zero_mod]; rfl
    exact runAll_cons (exec_nextWord_at hfirst hex.1 ht) []
  | succ t ih =>
    have ht' : t % bufLen s.regs < s.params.nmax := (Nat.mod_lt t hN).trans_le (bufLen_le_nmax hl)
    have hc : (refills (t / bufLen s.regs + 1) s.regs).cfgValid = true := (refills_frame _ s.regs).1.trans hex.1
    rw [readWords_succ, runAll_append, ih ht', Option.bind_some]
    exact runAll_cons (exec_nextWord_at (s := s.complete _ _) (refillIfExhausted_behind s.regs t hN) hc ht) []

/-- The word that read number `t` from an exhausted buffer returns (R125). -/
theorem observe_readWords_succ {s : State} (hex : s.regs.Exhausted) (hN : 0 < bufLen s.regs)
    (hl : s.regs.lanes.toNat ≤ s.params.lmax) (t : Nat) (ht : t % bufLen s.regs < s.params.nmax) :
    (runAll (readWords (t + 1)) s).bind observe =
      some (.ok, (refills (t / bufLen s.regs + 1) s.regs).buf[t % bufLen s.regs].toNat) := by
  rw [runAll_readWords_succ hex hN hl t ht]; rfl

/-! ### What the first N words of a refill depend on (R121, R150) -/

/-- Every index below N is the slot of a word of an active lane (R121). -/
theorem exists_slot_eq {l q : Nat} (hq : q < l * p.wpb) : ∃ i j, i < l ∧ j < p.wpb ∧ slot p l i j = q := by
  have hl : 0 < l := Nat.pos_of_mul_pos_right (Nat.zero_lt_of_lt hq)
  have hw : 0 < p.wpb := Nat.pos_of_mul_pos_left (Nat.zero_lt_of_lt hq)
  unfold slot
  cases p.bufLayout with
  | laneMajor =>
    exact ⟨q / p.wpb, q % p.wpb, (Nat.div_lt_iff_lt_mul hw).2 hq, Nat.mod_lt q hw, Nat.div_add_mod' q p.wpb⟩
  | wordMajor => exact ⟨q % l, q / l, Nat.mod_lt q hl, Nat.div_lt_of_lt_mul hq, Nat.div_add_mod' q l⟩

/-- A refill stores word `j` of an active lane's block in its slot (R120, R121). -/
theorem refill_buf_slot (r : Regs p) {i : Fin p.lmax} (hi : i.val < r.lanes.toNat) {j : Nat} (hj : j < p.wpb)
    (hn : slot p r.lanes.toNat i.val j < p.nmax) :
    (refill r).buf[slot p r.lanes.toNat i.val j]? = some (blockword p (outBlock r i) j) := by
  rw [refill, refillIn_eq]
  exact storeLanes_buf_at (outBlock r) _ r (fun k hk => (mem_activeLanes r k).1 hk) ((mem_activeLanes r i).2 hi) hj hn

/-- Refills whose active lanes form the same blocks leave the same first N words. -/
theorem refill_buf_congr {a b : Regs p} (hlanes : a.lanes = b.lanes) (hmax : b.lanes.toNat ≤ p.lmax)
    (hout : ∀ i : Fin p.lmax, i.val < b.lanes.toNat → outBlock a i = outBlock b i) {q : Nat} (hq : q < p.nmax)
    (hN : q < bufLen b) : (refill a).buf[q] = (refill b).buf[q] := by
  obtain ⟨i, j, hi, hj, rfl⟩ := exists_slot_eq hN
  have ha := refill_buf_slot a (i := ⟨i, hi.trans_le hmax⟩) (by rwa [hlanes]) hj (by rwa [hlanes])
  have hb := refill_buf_slot b (i := ⟨i, hi.trans_le hmax⟩) hi hj hq
  rw [hlanes, hout ⟨i, hi.trans_le hmax⟩ hi] at ha
  rw [← Option.some_inj, ← Vector.getElem?_eq_getElem hq, ← Vector.getElem?_eq_getElem hq, ha, hb]

/-- In CTR mode a lane's input is its counter (R150). -/
theorem inputMux_of_ctr {r : Regs p} (h : r.mode = .ctr) (i : Fin p.lmax) : inputMux r i = ctrBlock p r.ctr[i] := by
  unfold inputMux; rw [h]

/-- In CTR mode the first N words of a refill depend on the key and the active counters only (R108). -/
theorem refill_buf_congr_of_ctr {a b : Regs p} (ha : a.mode = .ctr) (hb : b.mode = .ctr) (hlanes : a.lanes = b.lanes)
    (hkey : a.key = b.key) (hmax : b.lanes.toNat ≤ p.lmax)
    (hctr : ∀ (i : Nat) (hi : i < p.lmax), i < b.lanes.toNat → a.ctr[i] = b.ctr[i]) {q : Nat} (hq : q < p.nmax)
    (hN : q < bufLen b) : (refill a).buf[q] = (refill b).buf[q] := by
  refine refill_buf_congr hlanes hmax (fun i hi => outBlock_congr hkey ?_) hq hN
  rw [inputMux_of_ctr ha, inputMux_of_ctr hb, Fin.getElem_fin, Fin.getElem_fin, hctr i.val i.isLt hi]

/-! ### The period (R108) -/

/-- An active lane's counter is the same a period of refills later. -/
theorem refills_ctr_add_period (hp : p.Wf) (r : Regs p) (n i : Nat) (hi : i < p.lmax) (hl : i < r.lanes.toNat) :
    (refills (n + counterPeriod p.m r.stride.toNat) r).ctr[i] = (refills n r).ctr[i] := by
  obtain ⟨k, hk⟩ := (counterPeriod_dvd_iff p.m r.stride.toNat _).1 dvd_rfl
  apply BitVec.eq_of_toNat_eq
  simp only [refills_ctr_eq_advances]
  rw [advances_ctr_toNat hp r _ i hi hl, advances_ctr_toNat hp r n i hi hl, Nat.add_mul, hk, ← Nat.add_assoc,
    Nat.add_mul_mod_self_left]

/-- In CTR mode the first N words of a refill are the same a period of refills later. -/
theorem refills_buf_add_period (hp : p.Wf) {r : Regs p} (hm : r.mode = .ctr) (hmax : r.lanes.toNat ≤ p.lmax) (n : Nat)
    {q : Nat} (hq : q < p.nmax) (hN : q < bufLen r) :
    (refills (n + counterPeriod p.m r.stride.toNat + 1) r).buf[q] = (refills (n + 1) r).buf[q] := by
  obtain ⟨-, hmode, hlanes, -, hkey, -⟩ := refills_frame n r
  obtain ⟨-, hmode', hlanes', -, hkey', -⟩ := refills_frame (n + counterPeriod p.m r.stride.toNat) r
  simp only [refills_succ]
  refine refill_buf_congr_of_ctr (hmode'.trans hm) (hmode.trans hm) (hlanes'.trans hlanes.symm) (hkey'.trans hkey.symm)
    (by rwa [hlanes]) (fun i hi hl => ?_) hq (by rwa [refills_bufLen])
  exact refills_ctr_add_period hp r n i hi (by rwa [hlanes] at hl)

/-- The CTR keystream repeats after a period of buffers. -/
theorem observe_readWords_add_period {s : State} (hs : s.Inv) (hex : s.regs.Exhausted) (hm : s.regs.mode = .ctr)
    (t : Nat) :
    (runAll (readWords (t + counterPeriod s.params.m s.regs.stride.toNat * bufLen s.regs + 1)) s).bind observe =
      (runAll (readWords (t + 1)) s).bind observe := by
  obtain ⟨hl, -, -⟩ := hs.control.2 hex.1
  have hmax : s.regs.lanes.toNat ≤ s.params.lmax := (supported_bounds hs.built hl).2.1
  have hN : 0 < bufLen s.regs := bufLen_pos hs.built hl
  have hlt : t % bufLen s.regs < bufLen s.regs := Nat.mod_lt t hN
  have hq : t % bufLen s.regs < s.params.nmax := hlt.trans_le (bufLen_le_nmax hmax)
  have hmod := Nat.add_mul_mod_self_right t (counterPeriod s.params.m s.regs.stride.toNat) (bufLen s.regs)
  have hdiv := Nat.add_mul_div_right t (counterPeriod s.params.m s.regs.stride.toNat) hN
  rw [observe_readWords_succ hex hN hmax _ (by rwa [hmod]), observe_readWords_succ hex hN hmax t hq]
  simp only [hmod, hdiv, refills_buf_add_period hs.built hm hmax (t / bufLen s.regs) hq hlt]

/-- Settles O34: P divides `n` exactly when `n` strides vanish modulo 2^M, and the words of a CTR refill are a function
of the counters that P refills bring back. -/
theorem counterBankPeriod : Obligations.CounterBankPeriod := by
  intro p r hp
  refine ⟨advances_ctr_toNat hp r, advances_ctr_eq_iff hp r, fun hpos hmax n => ?bank, counterPeriod_of_odd p.m,
    fun k hk hs => ?twoPow, fun a ha hr hl hk hmax hc q hq => refill_buf_congr_of_ctr ha hr hl hk hmax hc hq,
    fun s t hs hex hm => observe_readWords_add_period hs hex hm t⟩
  case bank =>
    constructor
    case mp =>
      intro hall
      exact (advances_ctr_eq_iff hp r n 0 (hpos.trans_le hmax) hpos).1 (hall 0 (hpos.trans_le hmax) hpos)
    case mpr =>
      intro hdvd i hi hl
      exact (advances_ctr_eq_iff hp r n i hi hl).2 hdvd
  case twoPow =>
    have hfits : 2 ^ k ≤ 2 ^ p.m := by
      have hstride : r.stride.toNat < 2 ^ 8 := r.stride.isLt
      have hword := two_pow_eight_le_word hp
      have hctr := word_le_counter hp
      omega
    rw [← hs, hk]
    exact counterPeriod_two_pow ((Nat.pow_le_pow_iff_right (by decide)).1 hfits)

end Sys2Proof.Machine
end

section
/-! PROOF. The refill buffer (R120 to R128). The slots of the active lanes are the indices below N, each written as two
digits, so the word that a refill leaves at an index is a word of one lane's block. From this and from what `t` reads of
an exhausted buffer do, the order of the words follows; in CTR mode the blocks follow from the counters after `n`
ADVANCEs. The cursor is bounded in every reachable state by the invariant of the control registers. -/

namespace Sys2Proof.Machine

variable {p : Params}

/-! ### The slots of a refill (R121) -/

theorem slot_laneMajor (h : p.bufLayout = .laneMajor) (l i j : Nat) : slot p l i j = i * p.wpb + j := by
  unfold slot; rw [h]

theorem slot_wordMajor (h : p.bufLayout = .wordMajor) (l i j : Nat) : slot p l i j = j * l + i := by
  unfold slot; rw [h]

/-- The slots of active lanes lie in the buffer of the current configuration (R121). -/
theorem slot_lt {l i j : Nat} (hi : i < l) (hj : j < p.wpb) : slot p l i j < l * p.wpb := by
  cases h : p.bufLayout with
  | laneMajor =>
    rw [slot_laneMajor h, Nat.add_comm, Nat.mul_comm l]
    exact lane_add_mul_lt hi hj
  | wordMajor =>
    rw [slot_wordMajor h, Nat.add_comm]
    exact lane_add_mul_lt hj hi

/-- Settles O37: a slot is a number below `l * WPB` written with the digits lane and word. -/
theorem slotsFillTheBufferOnce : Obligations.SlotsFillTheBufferOnce := by
  intro p l
  exact ⟨fun i j h => slot_laneMajor h l i j, fun i j h => slot_wordMajor h l i j, fun _ _ => slot_lt,
    fun _ _ _ _ => slot_inj, fun _ => exists_slot_eq⟩

/-- The word that a refill leaves at an index below N is a word of an active lane's block (R120, R121). -/
theorem exists_refill_buf_eq (r : Regs p) (hmax : r.lanes.toNat ≤ p.lmax) {q : Nat} (hq : q < p.nmax)
    (hN : q < bufLen r) : ∃ (i : Fin p.lmax) (j : Nat), i.val < r.lanes.toNat ∧ j < p.wpb ∧
      slot p r.lanes.toNat i.val j = q ∧ (refill r).buf[q] = blockword p (outBlock r i) j := by
  obtain ⟨i, j, hi, hj, rfl⟩ := exists_slot_eq hN
  have hbuf := refill_buf_slot r (i := ⟨i, hi.trans_le hmax⟩) hi hj hq
  rw [Vector.getElem?_eq_getElem hq, Option.some_inj] at hbuf
  exact ⟨⟨i, hi.trans_le hmax⟩, j, hi, hj, rfl, hbuf⟩

/-! ### What a configuration that meets the invariant has (R29) -/

/-- A configured core's lane count is one that the KSC supports. -/
theorem Regs.ControlInv.lanes_supported {r : Regs p} (h : r.ControlInv) (hc : r.cfgValid = true) :
    r.lanes.toNat ∈ p.supportedL :=
  (h.2 hc).1

/-- A configured core's cursor is in its buffer. -/
theorem Regs.ControlInv.pos_le {r : Regs p} (h : r.ControlInv) (hc : r.cfgValid = true) : r.pos ≤ bufLen r :=
  (h.2 hc).2.2

/-- A configured core's active lanes exist. -/
theorem Regs.ControlInv.lanes_le (hp : p.Wf) {r : Regs p} (h : r.ControlInv) (hc : r.cfgValid = true) :
    r.lanes.toNat ≤ p.lmax :=
  (supported_bounds hp (h.lanes_supported hc)).2.1

/-- A configured core's buffer is not empty. -/
theorem Regs.ControlInv.bufLen_pos (hp : p.Wf) {r : Regs p} (h : r.ControlInv) (hc : r.cfgValid = true) :
    0 < bufLen r :=
  Machine.bufLen_pos hp (h.lanes_supported hc)

/-! ### The cursor in reachable states (R127) -/

/-- No command writes a parameter of the KSC (R234). -/
theorem exec_params {i : Instr} {s t : State} (h : exec i s = .next t) : t.params = s.params := by
  obtain ⟨_, _, rfl⟩ | ⟨_, rfl⟩ | ⟨_, _, _, rfl⟩ | ⟨_, _, _, _, _, _, _, rfl⟩ | ⟨_, _, _, _, _, _, _, rfl⟩ |
    ⟨_, _, _, _, _, _, _, _, _, _, _, rfl⟩ | ⟨_, _, _, rfl⟩ | ⟨_, rfl⟩ := exec_cases i s t h <;> rfl

/-- No step writes a parameter of the KSC (R234). -/
theorem step_params {s t : State} (h : step s = .next t) : t.params = s.params := by
  obtain ⟨_, _, rfl, _⟩ | ⟨_, rfl⟩ | ⟨_, rest, _, _, _, hexec⟩ := step_cases s t h
  · rfl
  · rfl
  · exact exec_params (s := { s with inputs := rest }) hexec

/-- A reachable state has the parameters its KSC was built with and meets the invariant of the control registers. -/
theorem State.Reachable.controlInv (hp : p.Wf) {s : State} (h : s.Reachable p) :
    s.params = p ∧ s.regs.ControlInv := by
  induction h with
  | reset => exact ⟨rfl, Regs.reset_controlInv⟩
  | @step s t inputs _ next ih =>
    obtain ⟨rfl, hinv⟩ := ih
    exact ⟨step_params (s := { s with inputs := inputs }) next,
      stepKeepsTheControlInvariant { s with inputs := inputs } t hp hinv next⟩

/-- Settles O42: NEXT_WORD completes, for its own refill leaves a word to read, and it keeps the invariant. -/
theorem cursorStaysInTheBuffer : Obligations.CursorStaysInTheBuffer := by
  intro p s hp hreach hc
  obtain ⟨rfl, hinv⟩ := hreach.controlInv hp
  have hpos := hinv.pos_le hc
  have hlt := refillIfExhausted_pos_lt hpos (hinv.bufLen_pos hp hc)
  have hq := hlt.trans_le (bufLen_le_nmax (hinv.lanes_le hp hc))
  refine ⟨hpos, refill_pos s.regs, _, _, exec_nextWord_of_lt hc hq, Nat.le_add_left 1 _,
    (nextWord_controlInv hp hinv hc).pos_le (by simpa using hc), fun hne => ?next, fun heq => ?first⟩
  case next => rw [refillIfExhausted, if_neg hne]
  case first => rw [refillIfExhausted, if_pos heq, refill_pos]

/-! ### The refilling calls (R126) -/

/-- Settles O44: `t + 1` reads make `t / N + 1` refills, which is `(t + 1) / N` rounded up. -/
theorem refillsHappenOncePerBuffer : Obligations.RefillsHappenOncePerBuffer := by
  intro s t hs hex
  have hN : 0 < bufLen s.regs := hs.control.bufLen_pos hs.built hex.1
  have hmax := hs.control.lanes_le hs.built hex.1
  cases t with
  | zero =>
    have hnone : (0 + bufLen s.regs - 1) / bufLen s.regs = 0 := Nat.div_eq_of_lt (by omega)
    rw [hnone, if_pos rfl, ← hex.2]
    exact ⟨s.response, rfl⟩
  | succ t =>
    have hceil : (t + 1 + bufLen s.regs - 1) / bufLen s.regs = t / bufLen s.regs + 1 := by
      rw [Nat.add_right_comm, Nat.add_sub_cancel, Nat.add_div_right t hN]
    have hq : t % bufLen s.regs < s.params.nmax := (Nat.mod_lt t hN).trans_le (bufLen_le_nmax hmax)
    rw [hceil, if_neg (Nat.succ_ne_zero t), Nat.add_sub_cancel]
    exact ⟨_, runAll_readWords_succ hex hN hmax t hq⟩

/-! ### The order of the words (R125) -/

/-- A CREATE that configures the core has answered OK (R25, R173). -/
theorem exec_create_of_configured {s t : State} {mode l : Nat} {dflt str1 : Bool} (hc : s.regs.cfgValid = false)
    (h : exec (.create mode dflt str1 l) s = .next t) (ht : t.regs.cfgValid = true) :
    ∃ md, l ∈ s.params.supportedL ∧ t = s.complete (configure md dflt str1 l s.regs) 0 := by
  obtain ⟨st, _, rfl⟩ | ⟨e, -⟩ | ⟨_, e, -⟩ | ⟨_, _, _, _, _, e, -⟩ | ⟨_, _, _, _, _, e, -⟩ |
    ⟨_, _, _, _, md, e, _, _, hl, _, _, rfl⟩ | ⟨_, e, -⟩ | ⟨e, -⟩ := exec_cases _ _ _ h
  · rw [State.raise_regs, hc] at ht
    cases ht
  rotate_left 4
  · cases e
    exact ⟨md, hl, rfl⟩
  all_goals cases e

/-- A successful CREATE of a supported lane count leaves the buffer exhausted (R173, R31). -/
theorem configure_exhausted (hp : p.Wf) (md : Mode) (dflt str1 : Bool) {l : Nat} (hl : l ∈ p.supportedL)
    (r : Regs p) : (configure md dflt str1 l r).Exhausted := by
  refine ⟨configure_cfgValid .., ?_⟩
  rw [configure_pos, bufLen, configure_lanes, toNat_ofNat_lanes hp hl]

/-- Read number `t` from an exhausted buffer returns a word of the block of refill `t / N`, the one whose slot is
`t % N` (R125). -/
theorem exists_observe_readWords_eq {s : State} {l : Nat} (hs : s.params.Wf) (hinv : s.regs.ControlInv)
    (hex : s.regs.Exhausted) (hl : s.regs.lanes.toNat = l) (t : Nat) :
    ∃ (_ : t % bufLen s.regs < s.params.nmax) (i : Fin s.params.lmax) (j : Nat),
      i.val < l ∧ j < s.params.wpb ∧ slot s.params l i.val j = t % bufLen s.regs ∧
      (runAll (readWords (t + 1)) s).bind observe =
        some (.ok, (blockword s.params (outBlock (refills (t / bufLen s.regs) s.regs) i) j).toNat) ∧
      (refills (t / bufLen s.regs + 1) s.regs).buf[t % bufLen s.regs] =
        blockword s.params (outBlock (refills (t / bufLen s.regs) s.regs) i) j := by
  subst hl
  have hN := hinv.bufLen_pos hs hex.1
  have hmax := hinv.lanes_le hs hex.1
  have hlt : t % bufLen s.regs < bufLen s.regs := Nat.mod_lt t hN
  have hq : t % bufLen s.regs < s.params.nmax := hlt.trans_le (bufLen_le_nmax hmax)
  obtain ⟨-, -, hlanes, -⟩ := refills_frame (t / bufLen s.regs) s.regs
  obtain ⟨i, j, hi, hj, hslot, hbuf⟩ := exists_refill_buf_eq (refills (t / bufLen s.regs) s.regs)
    (by rwa [hlanes]) hq (by rwa [refills_bufLen])
  rw [hlanes] at hi hslot
  simp only [← refills_succ] at hbuf
  exact ⟨hq, i, j, hi, hj, hslot, by rw [observe_readWords_succ hex hN hmax t hq, hbuf], hbuf⟩

/-- Settles O45: CREATE leaves an exhausted buffer of the lane count asked for. -/
theorem wordsComeInSlotOrder : Obligations.WordsComeInSlotOrder := by
  intro s0 s mode l dflt str1 hs0 hc h ht
  obtain ⟨md, hl, rfl⟩ := exec_create_of_configured hc h ht
  have hlanes : (configure md dflt str1 l s0.regs).lanes.toNat = l := toNat_ofNat_lanes hs0.built hl
  exact ⟨congrArg (· * s0.params.wpb) hlanes, exists_observe_readWords_eq (s := s0.complete _ 0) hs0.built
    (configure_controlInv hs0.built md dflt str1 hl s0.regs) (configure_exhausted hs0.built md dflt str1 hl s0.regs)
    hlanes⟩

/-! ### The blocks of CTR mode (R128) -/

/-- An active lane's counter after `n` refills is its initial counter plus `n` strides, modulo 2^M (R108). -/
theorem refills_ctr_eq_ofNat (hp : p.Wf) (r : Regs p) (n i : Nat) (hi : i < p.lmax) (hl : i < r.lanes.toNat) :
    (refills n r).ctr[i] = BitVec.ofNat p.m (r.ctr[i].toNat + n * r.stride.toNat) := by
  apply BitVec.eq_of_toNat_eq
  simp only [refills_ctr_eq_advances]
  rw [advances_ctr_toNat hp r n i hi hl, BitVec.toNat_ofNat]

/-- Settles O46: refills keep mode and key, and a CTR block is E of the lane's own counter. -/
theorem ctrBlocksAreClosedForm : Obligations.CtrBlocksAreClosedForm := by
  intro p r n i hp hm hl
  obtain ⟨-, hmode, -, -, hkey, -⟩ := refills_frame n r
  have hctr := refills_ctr_eq_ofNat hp r n i.val i.isLt hl
  rw [outBlock, keyVec_congr hkey, inputMux_of_ctr (hmode.trans hm), Fin.getElem_fin, hctr, ctrBlock, Fin.getElem_fin]

end Sys2Proof.Machine
end

section
/-! PROOF. The mode-select multiplexer (R150 to R158). A lane's input is its counter, in CBC mode XOR its prev block, so
a zero prev block is no chaining and different prev blocks are different inputs. The mode is written by CREATE and by
ResetState only, and a prev block of an unconfigured core by IV_WRITE and by ResetState only. -/

namespace Sys2Proof.Machine

variable {p : Params}

/-! ### What the multiplexer feeds a lane (R150, R53) -/

/-- In CBC mode a lane's input is its counter XOR its prev block (R150). -/
theorem inputMux_of_cbc {r : Regs p} (h : r.mode = .cbc) (i : Fin p.lmax) :
    inputMux r i = ctrBlock p r.ctr[i] ^^^ r.prev[i] := by
  unfold inputMux; rw [h]

/-- A lane whose prev block is zero is fed its plain counter in either mode (R150, R154). -/
theorem inputMux_of_prev_eq_zero {r : Regs p} {i : Fin p.lmax} (h : r.prev[i] = 0) :
    inputMux r i = ctrBlock p r.ctr[i] := by
  cases hm : r.mode with
  | ctr => exact inputMux_of_ctr hm i
  | cbc => rw [inputMux_of_cbc hm, h]; exact BitVec.xor_zero

/-- A counter stands in the low M bits of its block, below zeros (R53). -/
theorem getLsbD_ctrBlock (hp : p.Wf) (c : BitVec p.m) (b : Nat) :
    (ctrBlock p c).getLsbD b = (decide (b < p.m) && c.getLsbD b) := by
  obtain ⟨-, -, -, -, -, -, -, hm, -⟩ := hp
  rw [ctrBlock, BitVec.getLsbD_setWidth]
  by_cases hb : b < p.m
  · rw [decide_eq_true hb, decide_eq_true (hb.trans_le hm)]
  · rw [BitVec.getLsbD_of_ge c b (Nat.le_of_not_lt hb), Bool.and_false, Bool.and_false]

/-- A block is as wide as a counter at least, so the counter's value is not cut off (R8, R53). -/
theorem toNat_ctrBlock (hp : p.Wf) (c : BitVec p.m) : (ctrBlock p c).toNat = c.toNat := by
  obtain ⟨-, -, -, -, -, -, -, hm, -⟩ := hp
  exact BitVec.toNat_setWidth_of_le hm

/-- Settles O36: the input is the zero-extended counter, in CBC mode XOR the lane's prev block. -/
theorem inputMuxFeedsCounterOrChainedCounter : Obligations.InputMuxFeedsCounterOrChainedCounter := by
  intro p r i hp
  refine ⟨fun hm b => ?ctr, fun hm b => ?cbc, fun hz a hm hc => ?zero, fun a => inputMux_congr,
    fun _ hm hc hprev => ?sample⟩
  case ctr => rw [inputMux_of_ctr hm, getLsbD_ctrBlock hp]
  case cbc => rw [inputMux_of_cbc hm, BitVec.getLsbD_xor, getLsbD_ctrBlock hp]
  case zero => rw [inputMux_of_prev_eq_zero hz, inputMux_of_ctr hm, hc]
  case sample => rw [inputMux_of_cbc hm, BitVec.toNat_xor, toNat_ctrBlock hp, hc, hprev]; rfl

/-! ### The mode is fixed while configured (R155) -/

/-- `t` has the configuration of the configured state `s`: the registers that only CREATE and KEY_WRITE write, and
ResetState clears (R26 to R28, R155). -/
def State.KeepsConfiguration (s t : State) : Prop :=
  t.regs.cfgValid = true ∧ t.regs.mode = s.regs.mode ∧ t.regs.lanes = s.regs.lanes ∧
    t.regs.stride = s.regs.stride ∧ t.regs.key.toList = s.regs.key.toList ∧ t.regs.keyCount = s.regs.keyCount

/-- Where no register changes, the configuration is kept. -/
theorem State.keepsConfiguration_of_same_regs {s : State} (hc : s.regs.cfgValid = true)
    (x : Option (Response s.params.owb)) (ins : List PortEvent) :
    s.KeepsConfiguration { s with response := x, inputs := ins } :=
  ⟨hc, rfl, rfl, rfl, rfl, rfl⟩

/-- A command keeps the configuration of a configured core or clears everything. -/
theorem exec_clears_or_keepsConfiguration {i : Instr} {s t : State} (hc : s.regs.cfgValid = true)
    (h : exec i s = .next t) : t.regs = Regs.reset t.params ∨ s.KeepsConfiguration t := by
  have hlocked : s.regs.cfgValid ≠ false := by simp [hc]
  obtain ⟨_, _, rfl⟩ | ⟨_, rfl⟩ | ⟨_, _, hu, _⟩ | ⟨_, _, _, _, _, _, hu, _⟩ | ⟨_, _, _, _, _, _, hu, _⟩ |
    ⟨_, _, _, _, _, _, _, _, _, _, hu, _⟩ | ⟨_, _, _, rfl⟩ | ⟨_, rfl⟩ := exec_cases i s t h
  · exact .inr (State.keepsConfiguration_of_same_regs hc _ _)
  · exact .inr (State.keepsConfiguration_of_same_regs hc _ _)
  · exact absurd hu hlocked
  · exact absurd hu hlocked
  · exact absurd hu hlocked
  · exact absurd hu hlocked
  · exact .inr (by simp [State.KeepsConfiguration, hc])
  · exact .inl rfl

/-- A step keeps the configuration of a configured core or clears everything (R155). -/
theorem step_clears_or_keepsConfiguration {s t : State} (hc : s.regs.cfgValid = true) (h : step s = .next t) :
    t.regs = Regs.reset t.params ∨ s.KeepsConfiguration t := by
  obtain ⟨x, ins, rfl, _⟩ | ⟨_, rfl⟩ | ⟨_, rest, _, _, _, hexec⟩ := step_cases s t h
  · exact .inr (State.keepsConfiguration_of_same_regs hc x ins)
  · exact .inl rfl
  · exact exec_clears_or_keepsConfiguration (s := { s with inputs := rest }) hc hexec

/-- A command that changes the mode is a CREATE or a DESTROY (R155). -/
theorem eq_destroy_or_create_of_mode_ne {i : Instr} {s t : State} (h : exec i s = .next t)
    (hne : t.regs.mode ≠ s.regs.mode) : i = .destroy ∨ ∃ mode dflt str1 lanes, i = .create mode dflt str1 lanes := by
  obtain ⟨_, _, rfl⟩ | ⟨_, rfl⟩ | ⟨din, _, _, rfl⟩ | ⟨_, _, _, _, _, _, _, rfl⟩ | ⟨_, _, _, _, _, _, _, rfl⟩ |
    ⟨_, _, _, _, _, hi, _⟩ | ⟨_, _, _, rfl⟩ | ⟨hi, _⟩ := exec_cases i s t h
  · exact absurd rfl hne
  · exact absurd rfl hne
  · exact absurd (appendKey_mode s.regs din) hne
  · exact absurd rfl hne
  · exact absurd rfl hne
  · exact .inr ⟨_, _, _, _, hi⟩
  · exact absurd (refillIfExhausted_mode s.regs) hne
  · exact .inl hi

/-- Settles O15: the four writing commands are locked, and every other command keeps the mode or clears it. -/
theorem modeIsFixedForTheLifeOfAConfiguration : Obligations.ModeIsFixedForTheLifeOfAConfiguration :=
  ⟨fun _ _ => step_clears_or_keepsConfiguration,
    fun _ hc => ⟨exec_keyWrite_locked hc, exec_ctrWrite_locked hc, exec_ivWrite_locked hc, exec_create_locked hc⟩,
    fun _ _ _ => eq_destroy_or_create_of_mode_ne⟩

/-! ### The initialization value (R154) -/

/-- While the core is unconfigured, the prev block of lane `i`, if there is such a lane, is zero. -/
def State.ZeroIv (i : Nat) (s : State) : Prop :=
  s.regs.cfgValid = false → ∀ h : i < s.params.lmax, s.regs.prev[i] = 0

/-- ResetState clears every prev block (R230). -/
theorem State.zeroIv_of_reset {s : State} (h : s.regs = Regs.reset s.params) (i : Nat) : s.ZeroIv i := by
  intro _ hi
  rw [h, Regs.reset_prev]

/-- An IV_WRITE leaves the prev blocks of the other lanes (R153). -/
theorem writePrevChunk_prev_other (r : Regs p) {lane : Fin p.lmax} (c : Nat) (x : Word) {i : Nat} (hi : i < p.lmax)
    (hne : lane.val ≠ i) : (writePrevChunk r lane c x).prev[i] = r.prev[i] := by
  simp [writePrevChunk, hne]

/-- A command that is no IV_WRITE to lane `i` keeps its zero prev block of an unconfigured core. -/
theorem exec_keeps_zeroIv {ins : Instr} {s t : State} {i : Nat} (hz : s.ZeroIv i)
    (hno : ∀ k din, ins ≠ .ivWrite i k din) (h : exec ins s = .next t) : t.ZeroIv i := by
  obtain ⟨_, _, rfl⟩ | ⟨_, rfl⟩ | ⟨din, _, hc, rfl⟩ | ⟨_, _, _, _, _, _, hc, rfl⟩ | ⟨lane, c, din, _, _, rfl, hc, rfl⟩ |
    ⟨_, _, _, _, _, _, _, _, _, _, _, rfl⟩ | ⟨_, _, hc, rfl⟩ | ⟨_, rfl⟩ := exec_cases ins s t h
  · exact hz
  · exact hz
  · intro _ hi
    simpa using hz hc hi
  · exact hz
  · intro _ hi
    have hne : lane ≠ i := fun e => hno c din (e ▸ rfl)
    exact (writePrevChunk_prev_other s.regs c din hi hne).trans (hz hc hi)
  · intro hu
    simp at hu
  · intro hu
    simp [hc] at hu
  · exact State.zeroIv_of_reset rfl i

/-- A run that goes on begins with a command that goes on. -/
theorem exists_exec_of_runAll_cons {i : Instr} {is : List Instr} {s t : State} (h : runAll (i :: is) s = some t) :
    ∃ u, exec i s = .next u ∧ runAll is u = some t := by
  unfold runAll at h
  cases hexec : exec i s with
  | next u => exact ⟨u, rfl, by simpa [hexec, goesOn] using h⟩
  | fault _ => simp [hexec, goesOn] at h
  | refused _ => simp [hexec, goesOn] at h

/-- A run without an IV_WRITE to lane `i` keeps its zero prev block of an unconfigured core. -/
theorem runAll_keeps_zeroIv {is : List Instr} {s t : State} {i : Nat} (hz : s.ZeroIv i)
    (hno : ∀ k din, Instr.ivWrite i k din ∉ is) (h : runAll is s = some t) : t.ZeroIv i := by
  induction is generalizing s with
  | nil => cases h; exact hz
  | cons x xs ih =>
    obtain ⟨u, hexec, hrest⟩ := exists_exec_of_runAll_cons h
    have hfirst : ∀ k din, x ≠ .ivWrite i k din := fun k din e => hno k din (e ▸ List.mem_cons_self)
    exact ih (exec_keeps_zeroIv hz hfirst hexec) (fun k din hm => hno k din (List.mem_cons_of_mem x hm)) hrest

/-- A successful CREATE leaves every prev block as it stands (R154). -/
theorem exec_create_complete_prev {s : State} {mode l : Nat} {dflt str1 : Bool} {r : Regs s.params}
    (h : exec (.create mode dflt str1 l) s = .next (s.complete r 0)) : r.prev = s.regs.prev := by
  obtain ⟨md, -, -, -, -, rfl⟩ := exec_create_complete h
  exact configure_prev md dflt str1 l s.regs

/-- Settles O49: the prev block is zero since reset, CREATE keeps it, and a zero prev block is no chaining. -/
theorem firstChainedRefillUsesTheInitializationValue : Obligations.FirstChainedRefillUsesTheInitializationValue := by
  refine ⟨fun s t is i hreset hno hrun hc => ?run, fun s mode l dflt str1 r _ => exec_create_complete_prev⟩
  have hzero : t.regs.prev[i] = 0 := runAll_keeps_zeroIv (State.zeroIv_of_reset hreset i.val) hno hrun hc i.isLt
  refine ⟨hzero, fun mode l dflt str1 r h => inputMux_of_prev_eq_zero ?_⟩
  rw [exec_create_complete_prev h, hzero]

/-! ### Chained differences propagate (R158) -/

/-- A counter after a refill depends on the lane count, the stride and the lane's own counter (R103, R106). -/
theorem refill_ctr_congr {a b : Regs p} (hl : a.lanes = b.lanes) (hs : a.stride = b.stride) {i : Fin p.lmax}
    (hc : a.ctr[i] = b.ctr[i]) : (refill a).ctr[i] = (refill b).ctr[i] := by
  rw [Fin.getElem_fin, Fin.getElem_fin] at hc
  simp only [refill_ctr, Fin.getElem_fin, advance_ctr, hl, hs, hc]

/-- A counter after `n` refills depends on the lane count, the stride and the lane's own counter. -/
theorem refills_ctr_congr (n : Nat) {a b : Regs p} (hl : a.lanes = b.lanes) (hs : a.stride = b.stride)
    {i : Fin p.lmax} (hc : a.ctr[i] = b.ctr[i]) : (refills n a).ctr[i] = (refills n b).ctr[i] := by
  induction n generalizing a b with
  | zero => exact hc
  | succ n ih => exact ih (by simpa using hl) (by simpa using hs) (refill_ctr_congr hl hs hc)

/-- Chained lanes with the same counter have different inputs exactly if their prev blocks differ: XOR with the counter
is a bijection (R158). -/
theorem inputMux_ne_iff_of_cbc {a b : Regs p} (ha : a.mode = .cbc) (hb : b.mode = .cbc) {i : Fin p.lmax}
    (hc : a.ctr[i] = b.ctr[i]) : inputMux a i ≠ inputMux b i ↔ a.prev[i] ≠ b.prev[i] := by
  rw [inputMux_of_cbc ha, inputMux_of_cbc hb, hc, Ne, BitVec.xor_right_inj]

/-- Where E under the key is injective, different inputs give different blocks. -/
theorem outBlock_ne {a b : Regs p} {i : Fin p.lmax} (hk : a.key = b.key)
    (hinj : Function.Injective (transformBlock p (keyVec a))) (hin : inputMux a i ≠ inputMux b i) :
    outBlock a i ≠ outBlock b i := by
  unfold outBlock
  rw [← keyVec_congr hk]
  exact hinj.ne hin

section Chained
variable {a b : Regs p} {i : Fin p.lmax} (ha : a.mode = .cbc) (hb : b.mode = .cbc) (hl : a.lanes = b.lanes)
  (hs : a.stride = b.stride) (hk : a.key = b.key) (hc : a.ctr[i] = b.ctr[i]) (hi : i.val < a.lanes.toNat)
  (hinj : Function.Injective (transformBlock p (keyVec a)))
include ha hb hl hs hc

/-- After `n` refills, different prev blocks of a chained lane are different inputs of it. -/
theorem refills_inputMux_ne {n : Nat} (h : (refills n a).prev[i] ≠ (refills n b).prev[i]) :
    inputMux (refills n a) i ≠ inputMux (refills n b) i := by
  obtain ⟨-, hma, -⟩ := refills_frame n a
  obtain ⟨-, hmb, -⟩ := refills_frame n b
  exact (inputMux_ne_iff_of_cbc (hma.trans ha) (hmb.trans hb) (refills_ctr_congr n hl hs hc)).2 h

include hk hinj

/-- After `n` refills, different prev blocks of a chained lane give different blocks of it. -/
theorem refills_outBlock_ne {n : Nat} (h : (refills n a).prev[i] ≠ (refills n b).prev[i]) :
    outBlock (refills n a) i ≠ outBlock (refills n b) i := by
  obtain ⟨-, -, -, -, hka, -⟩ := refills_frame n a
  obtain ⟨-, -, -, -, hkb, -⟩ := refills_frame n b
  exact outBlock_ne (hka.trans (hk.trans hkb.symm)) (by rwa [keyVec_congr hka])
    (refills_inputMux_ne ha hb hl hs hc h)

include hi

/-- Different prev blocks of a chained lane stay different: each refill puts the lane's block there (R152, R158). -/
theorem refills_prev_ne (n : Nat) (h : a.prev[i] ≠ b.prev[i]) :
    (refills n a).prev[i] ≠ (refills n b).prev[i] := by
  induction n with
  | zero => exact h
  | succ n ih =>
    obtain ⟨-, hma, hla, -⟩ := refills_frame n a
    obtain ⟨-, hmb, hlb, -⟩ := refills_frame n b
    rw [refills_succ, refills_succ, refill_prev, refill_prev, if_pos ⟨hma.trans ha, by rwa [hla]⟩,
      if_pos ⟨hmb.trans hb, by rwa [hlb, ← hl]⟩]
    exact refills_outBlock_ne ha hb hl hs hk hc hinj ih

end Chained

/-- Settles O48: the prev blocks stay different, and with them inputs and blocks. -/
theorem chainedDifferencesPropagate : Obligations.ChainedDifferencesPropagate := by
  intro p a b i ha hb hl hs hk hc hi hinj hne n
  have hprev := refills_prev_ne ha hb hl hs hk hc hi hinj n hne
  exact ⟨refills_inputMux_ne ha hb hl hs hc hprev, refills_outBlock_ne ha hb hl hs hk hc hinj hprev⟩

end Sys2Proof.Machine
end

section
/-! PROOF. The stream depends on the configuration, the key and the active lanes only (R106, R157). Two register files
that agree on these form the same blocks in their active lanes, so they fill the same first N words and agree again
after the refill. What `n` reads show is the word at the cursor after each of them, which is one of these N words. -/

namespace Sys2Proof.Machine

variable {p : Params}

/-! ### Refills of register files that agree on the stream -/

section SameStream
variable {a b : Regs p} (h : a.SameStream b)
include h

theorem Regs.SameStream.lanes_eq : a.lanes = b.lanes := by
  obtain ⟨-, hl, -⟩ := h
  exact hl

/-- The buffers are equally long. -/
theorem Regs.SameStream.bufLen_eq : bufLen a = bufLen b := by
  rw [bufLen, h.lanes_eq, bufLen]

/-- The active lanes are fed the same inputs (R150). -/
theorem Regs.SameStream.inputMux_eq {i : Fin p.lmax} (hi : i.val < a.lanes.toNat) : inputMux a i = inputMux b i := by
  obtain ⟨hm, -, -, -, hctr, hprev⟩ := h
  cases ha : a.mode with
  | ctr => rw [inputMux_of_ctr ha, inputMux_of_ctr (hm.symm.trans ha), hctr i hi]
  | cbc => exact inputMux_congr hm (hctr i hi) (hprev ha i hi)

/-- The active lanes form the same blocks. -/
theorem Regs.SameStream.outBlock_eq {i : Fin p.lmax} (hi : i.val < a.lanes.toNat) : outBlock a i = outBlock b i := by
  have hin := h.inputMux_eq hi
  obtain ⟨-, -, -, hk, -⟩ := h
  exact outBlock_congr hk hin

/-- A refill keeps the agreement. -/
theorem Regs.SameStream.after_refill : (refill a).SameStream (refill b) := by
  have hout := fun (i : Fin p.lmax) => h.outBlock_eq (i := i)
  obtain ⟨hm, hl, hs, hk, hctr, -⟩ := h
  refine ⟨by simpa using hm, by simpa using hl, by simpa using hs, by simpa using hk, fun i hi => ?ctr,
    fun hcbc i hi => ?prev⟩
  case ctr => exact refill_ctr_congr hl hs (hctr i (by simpa using hi))
  case prev =>
    rw [refill_mode] at hcbc
    rw [refill_lanes] at hi
    rw [refill_prev, refill_prev, if_pos ⟨hcbc, hi⟩, if_pos ⟨hm.symm.trans hcbc, hl ▸ hi⟩, hout i hi]

/-- A refill fills the same first N words. -/
theorem Regs.SameStream.refill_buf_eq (hmax : a.lanes.toNat ≤ p.lmax) {q : Nat} (hq : q < p.nmax) (hN : q < bufLen a) :
    (refill a).buf[q] = (refill b).buf[q] := by
  have hl := h.lanes_eq
  exact refill_buf_congr hl (hl ▸ hmax) (fun i hi => h.outBlock_eq (hl ▸ hi)) hq (h.bufLen_eq ▸ hN)

end SameStream

/-- Any number of refills keeps the agreement. -/
theorem Regs.SameStream.after_refills (n : Nat) {a b : Regs p} (h : a.SameStream b) :
    (refills n a).SameStream (refills n b) := by
  induction n generalizing a b with
  | zero => exact h
  | succ n ih => exact ih h.after_refill

/-- Every refill fills the same first N words (R157). -/
theorem Regs.SameStream.refills_buf_eq (n : Nat) {a b : Regs p} (h : a.SameStream b) (hmax : a.lanes.toNat ≤ p.lmax)
    {q : Nat} (hq : q < p.nmax) (hN : q < bufLen a) :
    (refills (n + 1) a).buf[q] = (refills (n + 1) b).buf[q] := by
  obtain ⟨-, -, hl, -⟩ := refills_frame n a
  simp only [refills_succ]
  exact (h.after_refills n).refill_buf_eq (by rwa [hl]) hq (by rwa [refills_bufLen])

/-- Refills keep the counters and prev blocks of the lanes from L on (R106). -/
theorem refills_idle_lane (n : Nat) (r : Regs p) {i : Fin p.lmax} (hi : r.lanes.toNat ≤ i.val) :
    (refills n r).ctr[i] = r.ctr[i] ∧ (refills n r).prev[i] = r.prev[i] := by
  induction n with
  | zero => exact ⟨rfl, rfl⟩
  | succ n ih =>
    obtain ⟨hctr, hprev⟩ := ih
    obtain ⟨-, -, hl, -⟩ := refills_frame n r
    have hidle : ¬ i.val < (refills n r).lanes.toNat := by rw [hl]; exact Nat.not_lt.2 hi
    rw [refills_succ]
    refine ⟨?ctr, ?prev⟩
    case ctr =>
      simp only [refill_ctr, Fin.getElem_fin, advance_ctr, if_neg hidle]
      exact hctr
    case prev =>
      rw [refill_prev, if_neg fun h => hidle h.2]
      exact hprev

/-! ### What reads show -/

/-- The trace of a run whose first command goes on. -/
theorem traceAll_cons {i : Instr} {s t : State} (h : exec i s = .next t) (rest : List Instr) :
    traceAll (i :: rest) s = (traceAll rest t).map fun r => (observe t :: r.1, r.2) := by
  simp only [traceAll, h, goesOn, Option.bind_some]

/-- What is observed of a run that goes on: what each of its beginnings leaves to observe. -/
theorem traceAll_fst_of_runAll {is : List Instr} {s t : State} (h : runAll is s = some t) :
    (traceAll is s).map Prod.fst =
      some ((List.range is.length).map fun k => (runAll (is.take (k + 1)) s).bind observe) := by
  induction is generalizing s with
  | nil => rfl
  | cons i is ih =>
    obtain ⟨u, hexec, hrest⟩ := exists_exec_of_runAll_cons h
    calc (traceAll (i :: is) s).map Prod.fst = ((traceAll is u).map Prod.fst).map (observe u :: ·) := by
          rw [traceAll_cons hexec, Option.map_map, Option.map_map]; rfl
      _ = some ((List.range (is.length + 1)).map fun k => (runAll ((i :: is).take (k + 1)) s).bind observe) := by
          rw [ih hrest, List.range_succ_eq_map, List.map_cons, List.map_map]
          simp only [List.take_succ_cons, runAll_cons hexec]
          rfl

/-- What `n` reads show: what read number `k` shows, for each `k` below `n`. -/
theorem traceAll_readWords_fst {n : Nat} {s t : State} (h : runAll (readWords n) s = some t) :
    (traceAll (readWords n) s).map Prod.fst =
      some ((List.range n).map fun k => (runAll (readWords (k + 1)) s).bind observe) := by
  have hlen : (readWords n).length = n := List.length_replicate
  rw [traceAll_fst_of_runAll h, hlen, Option.some_inj]
  refine List.map_congr_left fun k hk => ?_
  have htake : (readWords n).take (k + 1) = readWords (k + 1) := by
    rw [readWords, List.take_replicate, Nat.min_eq_left (List.mem_range.1 hk), readWords]
  rw [htake]

/-- Reads of an exhausted configuration go on (R202). -/
theorem exists_runAll_readWords {s : State} (hp : s.params.Wf) (hinv : s.regs.ControlInv) (hex : s.regs.Exhausted)
    (n : Nat) : ∃ t, runAll (readWords n) s = some t := by
  cases n with
  | zero => exact ⟨s, rfl⟩
  | succ n =>
    have hN := hinv.bufLen_pos hp hex.1
    have hmax := hinv.lanes_le hp hex.1
    exact ⟨_, runAll_readWords_succ hex hN hmax n ((Nat.mod_lt n hN).trans_le (bufLen_le_nmax hmax))⟩

/-- Read number `t` of exhausted configurations that agree on the stream shows the same word (R157). -/
theorem Regs.SameStream.observe_readWords_eq {a b : Regs p} (h : a.SameStream b) (hp : p.Wf) (ha : a.ControlInv)
    (hexa : a.Exhausted) (hexb : b.Exhausted) (respA respB : Option (Response p.owb)) (inA inB : List PortEvent)
    (t : Nat) : (runAll (readWords (t + 1)) ⟨p, a, respA, inA⟩).bind observe =
      (runAll (readWords (t + 1)) ⟨p, b, respB, inB⟩).bind observe := by
  have hN : 0 < bufLen a := ha.bufLen_pos hp hexa.1
  have hmax : a.lanes.toNat ≤ p.lmax := ha.lanes_le hp hexa.1
  have hlt : t % bufLen a < bufLen a := Nat.mod_lt t hN
  have hq : t % bufLen a < p.nmax := hlt.trans_le (bufLen_le_nmax hmax)
  have hlen : bufLen b = bufLen a := h.bufLen_eq.symm
  rw [observe_readWords_succ (s := ⟨p, a, respA, inA⟩) hexa hN hmax t hq,
    observe_readWords_succ (s := ⟨p, b, respB, inB⟩) hexb (by rwa [hlen]) (h.lanes_eq ▸ hmax) t (by rwa [hlen])]
  simp only [hlen, h.refills_buf_eq (t / bufLen a) hmax hq hlt]

/-- Settles O47: every read shows the same word, and a refill reads and writes no lane from L on. -/
theorem streamDependsOnlyOnTheActiveLanes : Obligations.StreamDependsOnlyOnTheActiveLanes := by
  intro p a b respA respB inA inB hp ha hb hexa hexb hsame
  refine ⟨fun n => ?words, fun n hn => ⟨fun q hq hN => ?buffers, fun i => refills_idle_lane n a⟩⟩
  case words =>
    obtain ⟨ta, hta⟩ := exists_runAll_readWords (s := ⟨p, a, respA, inA⟩) hp ha hexa n
    obtain ⟨tb, htb⟩ := exists_runAll_readWords (s := ⟨p, b, respB, inB⟩) hp hb hexb n
    rw [traceAll_readWords_fst hta, traceAll_readWords_fst htb, Option.some_inj]
    exact ⟨rfl, List.map_congr_left fun t _ =>
      hsame.observe_readWords_eq hp ha hexa hexb respA respB inA inB t⟩
  case buffers =>
    obtain ⟨m, rfl⟩ := Nat.exists_eq_succ_of_ne_zero hn.ne'
    exact hsame.refills_buf_eq m (ha.lanes_le hp hexa.1) hq hN

end Sys2Proof.Machine
end

section
/-! PROOF. NOP (R172). Its row tests every bit of the command word, so of the words with OP = 0 only the all-zero one is
NOP. -/

namespace Sys2Proof

/-- NOP completes with DOUT = 0 and leaves the registers. -/
theorem Machine.exec_nop (s : Machine.State) : Machine.exec .nop s = .next (s.complete s.regs 0) := by rfl

/-- The all-zero word is NOP, whatever DIN is. -/
theorem decode_zero (din : Word) : decode ⟨0, din⟩ = .instr .nop :=
  decode_of_match (n := 0) rfl BitVec.zero_and

/-- A word with OP = 0 that is not all zero has a must-be-zero bit set (R78). -/
theorem decode_of_op_zero_of_ne_zero {c : Command} (hop : field c.cmd 0 4 = 0) (hne : c.cmd ≠ 0) :
    decode c = .illegal .mustBeZero := by
  have hmask : c.cmd &&& 0xFFFFFFFF = c.cmd := BitVec.and_allOnes
  have hno : ¬ c.cmd &&& 0xFFFFFFFF = 0 := fun h => hne (hmask.symm.trans h)
  rw [decode_of_op c 0 hop]
  exact if_neg hno

/-- Settles O22: NOP, its word, and the other words with OP = 0. -/
theorem nopDoesNothing : Obligations.NopDoesNothing :=
  ⟨Machine.exec_nop, decode_zero, fun _ s hop hne =>
    Machine.execute_illegal (decode_of_op_zero_of_ne_zero hop hne) s⟩

end Sys2Proof
end

section
/-! PROOF. Errors (60_exceptions.md). The status a command answers with is read off its checks one after another, so a
check in front of the rest of a command puts its own status in front of the rest's; the causes of R200, looked for in
the order of R203, give the same list of alternatives. A command that goes on has either answered an error in the state
it was run in or completed with OK, and no command looks at the response before it. -/

namespace Sys2Proof.Machine

/-! ### Operands fit their fields (R72, R76) -/

/-- A field of `len` bits is below `2 ^ len`. -/
theorem field_lt (v : Word) (lo len : Nat) : field v lo len < 2 ^ len := (v.extractLsb' lo len).isLt

/-- The operands read from a word are well formed. -/
theorem operandsOf_wf {n : Nat} {c : Command} {i : Instr} (h : operandsOf n c = .instr i) : i.wf = true := by
  have hmode := field_lt c.cmd 4 2
  have ha := field_lt c.cmd 8 8
  have hb := field_lt c.cmd 16 8
  unfold operandsOf at h
  split at h <;> cases h
  case h_1 | h_2 | h_6 | h_7 => rfl
  case h_3 | h_4 => simpa [Instr.wf] using ⟨ha, hb⟩
  case h_5 => simpa [Instr.wf] using ⟨hmode, ha⟩

/-- A word that decodes decodes to a well-formed command. -/
theorem decode_wf {c : Command} {i : Instr} (h : decode c = .instr i) : i.wf = true := by
  obtain ⟨why, hd⟩ | ⟨row, hrow, hw⟩ := decode_cases c
  case inl => rw [hd] at h; cases h
  case inr => exact operandsOf_wf ((decode_of_match hrow hw).symm.trans h)

/-- Of the MODE values that fit the field, 2 and 3 are the unknown ones (R76). -/
theorem modeOf_cases {m : Nat} (h : m < 4) :
    ((m = 2 ∨ m = 3) ∧ modeOf m = none) ∨ (¬ (m = 2 ∨ m = 3) ∧ ∃ md, modeOf m = some md) := by
  match m, h with
  | 0, _ | 1, _ => exact .inr ⟨by decide, _, rfl⟩
  | 2, _ | 3, _ => exact .inl ⟨by decide, rfl⟩

/-! ### The status an outcome answers with (R39, R200) -/

/-- If the outcome goes on, its response has the status `st`. -/
def Answers (st : Status) (o : Host.Outcome State Fault Refusal) : Prop :=
  ∀ t, o = .next t → (observe t).map Prod.fst = some st

section Answers
variable {s : State} {st st' : Status} {o o' : Host.Outcome State Fault Refusal}

theorem answers_raise : Answers st (.next (s.raise st)) := by
  rintro t ⟨⟩; rfl

theorem answers_complete (r : Regs s.params) (d : BitVec s.params.owb) : Answers .ok (.next (s.complete r d)) := by
  rintro t ⟨⟩; rfl

theorem answers_fault (f : Fault) : Answers st (.fault f) := by
  rintro t ⟨⟩

/-- A check in front of the rest of a command puts its status in front of the rest's. -/
theorem Answers.ite {q : Prop} [Decidable q] (h : Answers st o) (h' : Answers st' o') :
    Answers (if q then st else st') (if q then o else o') := by
  split
  case isTrue => exact h
  case isFalse => exact h'

theorem Answers.whenUnlocked (h : Answers st o) :
    Answers (if s.regs.cfgValid = true then .errLocked else st) (whenUnlocked s o) :=
  answers_raise.ite h

theorem Answers.whenConfigured (h : Answers st o) :
    Answers (if s.regs.cfgValid = false then .errNotcfg else st) (whenConfigured s o) :=
  answers_raise.ite h

/-- The range check of an indexed write: ERR_RANGE from the bounds on, OK below them (R100, R153). -/
theorem answers_inRange {i j m n : Nat} (r : i < m ∧ j < n → Regs s.params) (d : BitVec s.params.owb) :
    Answers (if decide (m ≤ i ∨ n ≤ j) = true then .errRange else .ok)
      (if h : i < m ∧ j < n then .next (s.complete (r h) d) else .next (s.raise .errRange)) := by
  by_cases h : i < m ∧ j < n
  case pos => rw [dif_pos h, if_neg (by simpa using h)]; exact answers_complete _ _
  case neg => rw [dif_neg h, if_pos (by rw [decide_eq_true_eq]; omega)]; exact answers_raise

end Answers

/-! ### The first cause in the order of R203 -/

/-- The first status, in the order of R203, whose cause the list marks as present; OK if there is none. -/
def firstCause (causes : List (Status × Bool)) : Status :=
  (reportOrder.find? fun st => causes.any fun x => decide (x.1 = st) && x.2).getD .ok

theorem firstCause_locked (b : Bool) :
    firstCause [(.errLocked, b)] = if b = true then .errLocked else .ok := by
  cases b <;> rfl

theorem firstCause_notcfg (b : Bool) :
    firstCause [(.errNotcfg, !b)] = if b = false then .errNotcfg else .ok := by
  cases b <;> rfl

/-- The causes of an indexed write: the lock comes before the range. -/
theorem firstCause_indexed : ∀ locked range : Bool,
    firstCause [(.errLocked, locked), (.errRange, range)] =
      if locked = true then .errLocked else if range = true then .errRange else .ok := by
  decide

/-- The causes of CREATE: the lock comes first, and the other three follow as R200 lists them. -/
theorem firstCause_create : ∀ mode lanes keylen locked : Bool,
    firstCause [(.errMode, mode), (.errLanes, lanes), (.errKeylen, keylen), (.errLocked, locked)] =
      if locked = true then .errLocked else if mode = true then .errMode else
        if lanes = true then .errLanes else if keylen = true then .errKeylen else .ok := by
  decide

/-! ### Each command answers with its first cause -/

theorem execCreate_answers {mode : Nat} (hmode : mode < 4) (dflt str1 : Bool) (l : Nat) (s : State) :
    Answers (firstCause (causesOf (.create mode dflt str1 l) s)) (execCreate mode dflt str1 l s) := by
  simp only [causesOf, firstCause_create, decide_eq_true_eq]
  refine Answers.whenUnlocked ?_
  obtain ⟨hbad, hm⟩ | ⟨hgood, md, hm⟩ := modeOf_cases hmode
  case inl => rw [hm, if_pos hbad]; exact answers_raise
  case inr => rw [hm, if_neg hgood]; exact answers_raise.ite (answers_raise.ite (answers_complete _ _))

theorem execNextWord_answers (s : State) : Answers (firstCause (causesOf .nextWord s)) (execNextWord s) := by
  rw [causesOf, firstCause_notcfg]
  refine Answers.whenConfigured ?_
  dsimp only
  split
  case h_1 => exact answers_complete _ _
  case h_2 => exact answers_fault _

/-- Every well-formed command answers with the first of its causes (R203). -/
theorem exec_answers {i : Instr} (hi : i.wf = true) (s : State) : Answers (firstCause (causesOf i s)) (exec i s) := by
  cases i with
  | nop => exact answers_complete _ _
  | keyWrite din => rw [causesOf, firstCause_locked]; exact (answers_complete _ _).whenUnlocked
  | ctrWrite | ivWrite => rw [causesOf, firstCause_indexed]; exact (answers_inRange _ _).whenUnlocked
  | create mode dflt str1 l =>
    have hfits : mode < 4 ∧ l < 256 := by simpa [Instr.wf] using hi
    exact execCreate_answers hfits.1 dflt str1 l s
  | nextWord => exact execNextWord_answers s
  | destroy => exact answers_complete _ _

/-- Every word answers with the first of its causes: ERR_ILLEGAL, or those of the command it decodes to (R203). -/
theorem execute_answers (c : Command) (s : State) :
    Answers ((reportOrder.find? (causePresent c s)).getD .ok) (execute c s) := by
  cases hd : decode c with
  | illegal why =>
    have hfirst : (reportOrder.find? (causePresent c s)).getD .ok = .errIllegal := by
      simp [reportOrder, causePresent, hd]
    rw [hfirst, execute_illegal hd]
    exact answers_raise
  | instr i =>
    have hfirst : (reportOrder.find? (causePresent c s)).getD .ok = firstCause (causesOf i s) := by
      unfold causePresent firstCause; rw [hd]
    rw [hfirst, execute, hd]
    exact exec_answers (decode_wf hd) s

/-- An unconfigured core refuses an unknown mode before it looks at the lanes and the key (R173, R203). -/
theorem exec_create_mode {s : State} {mode : Nat} (hc : s.regs.cfgValid = false) (hm : modeOf mode = none)
    (dflt str1 : Bool) (l : Nat) : exec (.create mode dflt str1 l) s = .next (s.raise .errMode) := by
  simp [exec, execCreate, whenUnlocked, hc, hm]

/-- Settles O16: every word answers with its first cause, and R203's example is a CREATE of MODE 3. -/
theorem statusIsTheFirstCause : Obligations.StatusIsTheFirstCause := by
  refine ⟨⟨rfl, rfl, rfl, rfl, rfl, rfl, rfl, rfl, ?codes⟩, execute_answers, fun p din _ => ?badMode⟩
  case codes => intro st; cases st <;> decide
  case badMode =>
    have hd : decode ⟨0x00000034, din⟩ = .instr (.create 3 false false 0) :=
      decode_create_of_fields (by decide) (by decide) (by decide) (by decide) (by decide) din
    rw [execute, hd]
    exact exec_create_mode rfl rfl false false 0

/-! ### Errors are precise (R201, R208) -/

/-- A command that goes on has raised an error in the state it was run in, or completed with OK (R14, R15). -/
theorem execute_raises_or_completes {c : Command} {s t : State} (h : execute c s = .next t) :
    (∃ st, st ≠ .ok ∧ t = s.raise st) ∨ ∃ r dout, t = s.complete r dout := by
  cases hd : decode c with
  | illegal why =>
    rw [execute_illegal hd] at h
    cases h
    exact .inl ⟨_, by decide, rfl⟩
  | instr i =>
    rw [execute, hd] at h
    obtain hraise | ⟨_, rfl⟩ | ⟨_, _, _, rfl⟩ | ⟨_, _, _, _, _, _, _, rfl⟩ | ⟨_, _, _, _, _, _, _, rfl⟩ |
      ⟨_, _, _, _, _, _, _, _, _, _, _, rfl⟩ | ⟨_, _, _, rfl⟩ | ⟨_, rfl⟩ := exec_cases i s t h
    case inl => exact .inl hraise
    all_goals exact .inr ⟨_, _, rfl⟩

/-- No word looks at the response before it. -/
theorem execute_response (c : Command) (s : State) (x : Option (Response s.params.owb)) :
    execute c { s with response := x } = execute c s := by
  unfold execute
  split
  case h_1 i _ => exact exec_response i s x
  case h_2 => rfl

/-- Settles O17: an error is raised, which answers DOUT = 0 and writes nothing but the response. -/
theorem errorsArePrecise : Obligations.ErrorsArePrecise := by
  intro c s t h
  obtain ⟨st, -, rfl⟩ | ⟨r, dout, rfl⟩ := execute_raises_or_completes h
  case inl => exact ⟨st, 0, by simp [observe], fun _ => ⟨rfl, rfl⟩⟩
  case inr => exact ⟨.ok, dout.toNat, rfl, fun hne => absurd rfl hne⟩

/-- Settles O18: an error leaves the state but for the response, which no following word looks at. -/
theorem failedCommandLeavesNoTrace : Obligations.FailedCommandLeavesNoTrace := by
  intro c s t h hfail c'
  obtain ⟨st, dout, hobs, hprecise⟩ := errorsArePrecise c s t h
  have hne : st ≠ .ok := fun hok => hfail (by rw [hobs, hok]; rfl)
  rw [(hprecise hne).2]
  exact execute_response c' s _

/-! ### The hot path (R202) -/

/-- The word of NEXT_WORD, whatever DIN is (R73, R77). -/
theorem decode_five (din : Word) : decode ⟨0x00000005, din⟩ = .instr .nextWord :=
  decode_of_match (n := 5) rfl (by decide : (0x00000005 : Word) &&& 0xFFFFFFFF = 0x00000005)

/-- After NEXT_WORD's own refill a configured core's cursor names a word of the buffer (R124, R127). -/
theorem Regs.ControlInv.refillIfExhausted_pos_lt_nmax {p : Params} (hp : p.Wf) {r : Regs p} (h : r.ControlInv)
    (hc : r.cfgValid = true) : (refillIfExhausted r).pos < p.nmax :=
  (refillIfExhausted_pos_lt (h.pos_le hc) (h.bufLen_pos hp hc)).trans_le (bufLen_le_nmax (h.lanes_le hp hc))

/-- Settles O20: there is a word to return, and NEXT_WORD writes no cfg_valid. -/
theorem hotPathNeverFails : Obligations.HotPathNeverFails := by
  intro s din hs hc
  rw [execute, decode_five]
  exact ⟨_, _, exec_nextWord_of_lt hc (hs.control.refillIfExhausted_pos_lt_nmax hs.built hc), by simpa using hc⟩

end Sys2Proof.Machine
end

section
/-! PROOF. Encoder and decoder are inverse (R72 to R77). A command's word has the opcode of the command's row and matches
it, so it decodes to the operands in its fields, and these are the numbers that were put there. The other way round, a
word whose RSV field is 0 is made from its other four fields, and the must-be-zero fields of its row are 0. -/

namespace Sys2Proof

/-! ### Decoding an encoding -/

/-- Every command's encoding is the table's own row for it (R74). -/
theorem encodingRow (i : Instr) : Laws.EncodingRow.Statement i := by
  cases i with
  | nop => exact Laws.EncodingRow.nop
  | keyWrite din => exact Laws.EncodingRow.keyWrite din
  | ctrWrite lane k din => exact Laws.EncodingRow.ctrWrite lane k din
  | ivWrite lane c din => exact Laws.EncodingRow.ivWrite lane c din
  | create mode dflt str1 lanes => exact Laws.EncodingRow.create mode dflt str1 lanes
  | nextWord => exact Laws.EncodingRow.nextWord
  | destroy => exact Laws.EncodingRow.destroy

/-- The row found under a mnemonic is the row of its opcode. -/
theorem rowOf_of_rowNamed {m : String} {op : Nat} {row : OpcodeRow} (h : rowNamed m = some (op, row)) :
    rowOf op = some row := by
  obtain ⟨n, -, hn⟩ := List.mem_filterMap.1 (List.mem_of_find?_eq_some h)
  obtain ⟨r, hr, heq⟩ := Option.map_eq_some_iff.1 hn
  cases heq
  exact hr

/-- An encoding decodes to the operands in its own fields (R75). -/
theorem decode_encode (i : Instr) : decode (encode i) = operandsOf (field (encode i).cmd 0 4) (encode i) := by
  obtain ⟨op, row, hnamed, rfl, hmatch⟩ := encodingRow i
  exact decode_of_match (rowOf_of_rowNamed hnamed) hmatch

/-- The MOD field of CREATE takes four bits: MODE, DFLT and STR1 (R76). -/
theorem commandWord_create_mod (op a b mode : Nat) (dflt str1 : Bool) :
    field (commandWord op (mode % 4 + 4 * dflt.toNat + 8 * str1.toNat) a b) 4 4 =
      mode % 4 + 4 * dflt.toNat + 8 * str1.toNat := by
  have hd := dflt.toNat_le
  have hs := str1.toNat_le
  rw [commandWord_mod]; omega

/-- MODE, DFLT and STR1 are the parts of the MOD field (R76). -/
theorem field_mod_eq (w : Word) :
    field w 4 4 = field w 4 2 + 4 * (flagBit w 6).toNat + 8 * (flagBit w 7).toNat := by
  have bit (i : Nat) : (flagBit w i).toNat = w.toNat / 2 ^ i % 2 := by
    rw [flagBit_eq]
    obtain h | h := Nat.mod_two_eq_zero_or_one (w.toNat / 2 ^ i) <;> simp [h]
  rw [bit, bit, field_eq, field_eq]
  omega

/-- MODE, DFLT and STR1 are read back from the MOD field they were put in (R76). -/
theorem modeFields_of_mod {w : Word} {mode : Nat} {dflt str1 : Bool} (hm : mode < 4)
    (h : field w 4 4 = mode % 4 + 4 * dflt.toNat + 8 * str1.toNat) :
    field w 4 2 = mode ∧ flagBit w 6 = dflt ∧ flagBit w 7 = str1 := by
  have hmode : field w 4 2 < 4 := Machine.field_lt w 4 2
  have h6 := (flagBit w 6).toNat_le
  have h7 := (flagBit w 7).toNat_le
  have hd := dflt.toNat_le
  have hs := str1.toNat_le
  rw [field_mod_eq] at h
  have inj : Function.Injective Bool.toNat := Function.LeftInverse.injective Bool.ofNat_toNat
  exact ⟨by omega, inj (by omega), inj (by omega)⟩

/-- Settles O4: the word decodes to the operands in its fields, and an operand that fits its field is not cut off. -/
theorem decodeInvertsEncode : Obligations.DecodeInvertsEncode := by
  intro i hi
  rw [decode_encode]
  cases i with
  | nop | keyWrite | nextWord | destroy => rfl
  | ctrWrite a b din | ivWrite a b din =>
    have hfits : a < 256 ∧ b < 256 := by simpa [Instr.wf] using hi
    simp only [encode, commandWord_op, operandsOf, commandWord_a, commandWord_b, Nat.mod_eq_of_lt hfits.1,
      Nat.mod_eq_of_lt hfits.2]
  | create mode dflt str1 lanes =>
    have hfits : mode < 4 ∧ lanes < 256 := by simpa [Instr.wf] using hi
    obtain ⟨hmode, hd, hs⟩ := modeFields_of_mod hfits.1 (commandWord_create_mod 4 lanes 0 mode dflt str1)
    simp only [encode, commandWord_op, operandsOf, commandWord_a, hmode, hd, hs, Nat.mod_eq_of_lt hfits.2]

/-! ### Encoding what was decoded -/

/-- A word whose RSV field is 0 is made from its other four fields (R72). -/
theorem commandWord_of_fields {w : Word} {op mod a b : Nat} (hop : field w 0 4 = op) (hmod : field w 4 4 = mod)
    (ha : field w 8 8 = a) (hb : field w 16 8 = b) (hrsv : field w 24 8 = 0) : commandWord op mod a b = w := by
  subst hop hmod ha hb
  apply BitVec.eq_of_toNat_eq
  have hw := w.isLt
  rw [commandWord_toNat]
  simp only [field_eq] at *
  omega

/-- The word of a row is the encoding of the operands in its fields, and DIN is one of them where the command uses it
(R72, R75 to R77). -/
theorem encode_of_operandsOf {c : Command} {n : Nat} {i : Instr} (hop : field c.cmd 0 4 = n)
    (hz : MustBeZeroClear n c.cmd) (h : operandsOf n c = .instr i) :
    (encode i).cmd = c.cmd ∧ (i.usesDin = true → (encode i).din = c.din) := by
  unfold operandsOf at h
  split at h <;> cases h
  case h_1 | h_6 | h_7 =>
    obtain ⟨hmod, ha, hb, hrsv⟩ := hz
    exact ⟨commandWord_of_fields hop hmod ha hb hrsv, nofun⟩
  case h_2 =>
    obtain ⟨hmod, ha, hb, hrsv⟩ := hz
    exact ⟨commandWord_of_fields hop hmod ha hb hrsv, fun _ => rfl⟩
  case h_3 | h_4 =>
    obtain ⟨hmod, hrsv⟩ := hz
    exact ⟨commandWord_of_fields hop hmod rfl rfl hrsv, fun _ => rfl⟩
  case h_5 =>
    obtain ⟨hb, hrsv⟩ := hz
    have hmode : field c.cmd 4 2 % 4 = field c.cmd 4 2 := Nat.mod_eq_of_lt (Machine.field_lt c.cmd 4 2)
    exact ⟨commandWord_of_fields hop (by rw [field_mod_eq, hmode]) rfl hb hrsv, nofun⟩

/-- Settles O5: a word that decodes matches the row of its opcode, whose must-be-zero fields are 0. -/
theorem encodeInvertsDecode : Obligations.EncodeInvertsDecode := by
  intro c i h
  refine ⟨Machine.decode_wf h, ?_⟩
  obtain ⟨why, hd⟩ | ⟨row, hrow, hw⟩ := decode_cases c
  case inl => rw [hd] at h; cases h
  case inr =>
    exact encode_of_operandsOf rfl ((and_mask_iff hrow c.cmd).1 hw).2 ((decode_of_match hrow hw).symm.trans h)

/-! ### An ignored DIN -/

/-- The operands of a command that does not use DIN are read from the command word alone (R77). -/
theorem operandsOf_ignores_din {n : Nat} {w din : Word} {i : Instr} (h : operandsOf n ⟨w, din⟩ = .instr i)
    (hi : i.usesDin = false) (din' : Word) : operandsOf n ⟨w, din'⟩ = .instr i := by
  unfold operandsOf at h
  split at h <;> cases h
  case h_1 | h_5 | h_6 | h_7 => rfl
  case h_2 | h_3 | h_4 => cases hi

/-- A word that names a command which does not use DIN names the same command with every DIN (R77). -/
theorem decode_ignores_din {w din : Word} {i : Instr} (h : decode ⟨w, din⟩ = .instr i) (hi : i.usesDin = false)
    (din' : Word) : decode ⟨w, din'⟩ = .instr i := by
  obtain ⟨why, hd⟩ | ⟨row, hrow, hw⟩ := decode_cases ⟨w, din⟩
  case inl => rw [hd] at h; cases h
  case inr =>
    rw [decode_of_match hrow hw] at h
    rw [decode_of_match (c := ⟨w, din'⟩) hrow hw]
    exact operandsOf_ignores_din h hi din'

/-- Settles O6: the two words decode to the same command. -/
theorem ignoredDataWordHasNoEffect : Obligations.IgnoredDataWordHasNoEffect := by
  intro w din din' i h hi s
  rw [Machine.execute, Machine.execute, h, decode_ignores_din h hi din']

end Sys2Proof
end

section
/-! PROOF. The configuration commands (R81, R100, R153, R171, R173). KEY_WRITE, CTR_WRITE and IV_WRITE are one kind of
command: refused while the core is configured, and otherwise one function on the registers and one status. What holds of
runs of them follows from laws of these functions: a slice written twice, registers written in either order, and the
slices of a value written one after another. CREATE in an unconfigured core answers by its checks alone. -/

namespace Sys2Proof.Machine

variable {p : Params}

/-! ### KEY_WRITE (R171) -/

/-- KEY_WRITE stores its word where there is room, and counts up to KEYLEN+1. -/
theorem appendKey_eq (r : Regs p) (d : Word) : appendKey r d =
    { r with key := r.key.setIfInBounds r.keyCount d, keyCount := min (r.keyCount + 1) (p.keylen + 1) } := by
  unfold appendKey
  split
  case isTrue h =>
    rw [Nat.min_eq_left (by omega)]
    refine Regs.ext_fields rfl rfl rfl rfl rfl rfl rfl rfl ?_ rfl
    simp [Vector.setIfInBounds, Vector.set, Array.setIfInBounds, h]
  case isFalse h =>
    rw [Nat.min_eq_right (by omega)]
    exact Regs.ext_fields rfl rfl rfl rfl rfl rfl rfl rfl (Vector.setIfInBounds_eq_of_size_le (by omega)).symm rfl

/-- Settles O23: the word goes to the key word that key_count names, if there is one. -/
theorem keyWriteAppendsOneWord : Obligations.KeyWriteAppendsOneWord := by
  intro s din hc
  rw [exec_keyWrite hc]
  refine ⟨fun h => ⟨s.regs.key.set s.regs.keyCount din h, ?room, by simp, fun j hj hne => ?other⟩, fun h => ?full⟩
  case room => rw [appendKey, dif_pos h]
  case other => simp [hne.symm]
  case full => rw [appendKey, dif_neg (Nat.not_lt.2 h)]

/-! ### CTR_WRITE and IV_WRITE (R100, R153) -/

/-- What CTR_WRITE leaves in the lane it names. -/
theorem writeCtrWord_ctr_same (r : Regs p) {lane : Nat} (hl : lane < p.lmax) (k : Nat) (x : BitVec p.cwb) :
    (writeCtrWord r ⟨lane, hl⟩ k x).ctr[lane] = setCtrWord r.ctr[lane] k x := by
  simp [writeCtrWord]

/-- A CTR_WRITE leaves the counters of the other lanes. -/
theorem writeCtrWord_ctr_other (r : Regs p) {lane : Fin p.lmax} (k : Nat) (x : BitVec p.cwb) {i : Nat}
    (hi : i < p.lmax) (hne : lane.val ≠ i) : (writeCtrWord r lane k x).ctr[i] = r.ctr[i] := by
  simp [writeCtrWord, hne]

/-- A counter has room for each of its W words (R10, R52). -/
theorem word_fits {k : Nat} (hk : k < p.w) : p.cwb * (k + 1) ≤ p.m := Nat.mul_le_mul_left _ hk

/-- Settles O25: the words of the lane named are read back by the laws of slices. -/
theorem ctrWriteWritesOneWord : Obligations.CtrWriteWritesOneWord := by
  intro s lane k din hc
  refine ⟨fun hl hk => ⟨(writeCtrWord s.regs ⟨lane, hl⟩ k (din.setWidth _)).ctr, exec_ctrWrite hc hl hk din, ?word,
    fun k' _ hne => ?others, fun i hi hne => writeCtrWord_ctr_other s.regs k _ hi hne.symm⟩,
    fun h => exec_ctrWrite_range hc h din⟩
  case word => rw [writeCtrWord_ctr_same, ctrWord_setCtrWord_same _ _ _ (word_fits hk)]
  case others => rw [writeCtrWord_ctr_same, ctrWord_setCtrWord_other _ _ _ _ hne]

/-- Settles O26: the bits of the chunk named are those of DIN, and the others are kept. -/
theorem ivWriteWritesOneChunk : Obligations.IvWriteWritesOneChunk := by
  intro s lane c din hc
  refine ⟨fun hl hk => ⟨(writePrevChunk s.regs ⟨lane, hl⟩ c din).prev, exec_ivWrite hc hl hk din, fun b hb => ?bits,
    fun i hi hne => writePrevChunk_prev_other s.regs c din hi hne.symm⟩, fun h => exec_ivWrite_range hc h din⟩
  case bits =>
    have hsame := writePrevChunk_prev_same s.regs ⟨lane, hl⟩ c din
    simp only [Fin.getElem_fin] at hsame
    rw [hsame, setChunk, getLsbD_putBits, decide_eq_true hb, Bool.true_and]

/-! ### One kind of command -/

/-- A command that configures: refused with ERR_LOCKED while the core is configured, and otherwise answering `st` and
changing the registers by `f`, which leaves cfg_valid. -/
structure ConfigWrite (i : Instr) (st : Status) (f : Regs p → Regs p) : Prop where
  locked : ∀ (r : Regs p) (x : Option (Response p.owb)) (ins : List PortEvent), r.cfgValid = true →
    exec i ⟨p, r, x, ins⟩ = .next ⟨p, r, some ⟨.errLocked, 0⟩, ins⟩
  unlocked : ∀ (r : Regs p) (x : Option (Response p.owb)) (ins : List PortEvent), r.cfgValid = false →
    exec i ⟨p, r, x, ins⟩ = .next ⟨p, f r, some ⟨st, 0⟩, ins⟩
  cfgValid : ∀ r : Regs p, (f r).cfgValid = r.cfgValid

theorem configWrite_keyWrite (d : Word) : ConfigWrite (p := p) (.keyWrite d) .ok fun r => appendKey r d where
  locked _ _ _ hc := exec_keyWrite_locked hc d
  unlocked _ _ _ hc := exec_keyWrite hc d
  cfgValid r := appendKey_cfgValid r d

theorem configWrite_ctrWrite {lane k : Nat} (hl : lane < p.lmax) (hk : k < p.w) (d : Word) :
    ConfigWrite (.ctrWrite lane k d) .ok fun r : Regs p => writeCtrWord r ⟨lane, hl⟩ k (d.setWidth p.cwb) where
  locked _ _ _ hc := exec_ctrWrite_locked hc lane k d
  unlocked _ _ _ hc := exec_ctrWrite hc hl hk d
  cfgValid _ := rfl

theorem configWrite_ctrWrite_range {lane k : Nat} (h : p.lmax ≤ lane ∨ p.w ≤ k) (d : Word) :
    ConfigWrite (p := p) (.ctrWrite lane k d) .errRange id where
  locked _ _ _ hc := exec_ctrWrite_locked hc lane k d
  unlocked _ _ _ hc := exec_ctrWrite_range hc h d
  cfgValid _ := rfl

theorem configWrite_ivWrite {lane c : Nat} (hl : lane < p.lmax) (hk : c < p.chunks) (d : Word) :
    ConfigWrite (.ivWrite lane c d) .ok fun r : Regs p => writePrevChunk r ⟨lane, hl⟩ c d where
  locked _ _ _ hc := exec_ivWrite_locked hc lane c d
  unlocked _ _ _ hc := exec_ivWrite hc hl hk d
  cfgValid _ := rfl

theorem configWrite_ivWrite_range {lane c : Nat} (h : p.lmax ≤ lane ∨ p.chunks ≤ c) (d : Word) :
    ConfigWrite (p := p) (.ivWrite lane c d) .errRange id where
  locked _ _ _ hc := exec_ivWrite_locked hc lane c d
  unlocked _ _ _ hc := exec_ivWrite_range hc h d
  cfgValid _ := rfl

/-- CTR_WRITE is a configuring command that writes the counters alone, and twice is once (R59). -/
theorem exists_configWrite_ctrWrite (p : Params) (lane k : Nat) (d : Word) :
    ∃ (st : Status) (g : Vector (BitVec p.m) p.lmax → Vector (BitVec p.m) p.lmax), (∀ v, g (g v) = g v) ∧
      ConfigWrite (.ctrWrite lane k d) st fun r : Regs p => { r with ctr := g r.ctr } := by
  by_cases h : lane < p.lmax ∧ k < p.w
  case pos =>
    refine ⟨.ok, fun v => v.set lane (setCtrWord v[lane] k (d.setWidth p.cwb)) h.1, fun v => ?_,
      configWrite_ctrWrite h.1 h.2 d⟩
    simp [setCtrWord, putBits_putBits]
  case neg => exact ⟨.errRange, id, fun _ => rfl, configWrite_ctrWrite_range (by omega) d⟩

/-- IV_WRITE is a configuring command that writes the prev blocks alone, and twice is once (R59). -/
theorem exists_configWrite_ivWrite (p : Params) (lane c : Nat) (d : Word) :
    ∃ (st : Status) (g : Vector (BitVec p.bw) p.lmax → Vector (BitVec p.bw) p.lmax), (∀ v, g (g v) = g v) ∧
      ConfigWrite (.ivWrite lane c d) st fun r : Regs p => { r with prev := g r.prev } := by
  by_cases h : lane < p.lmax ∧ c < p.chunks
  case pos =>
    refine ⟨.ok, fun v => v.set lane (setChunk v[lane] c d) h.1, fun v => ?_, configWrite_ivWrite h.1 h.2 d⟩
    simp [setChunk, putBits_putBits]
  case neg => exact ⟨.errRange, id, fun _ => rfl, configWrite_ivWrite_range (by omega) d⟩

/-! ### Runs of configuring commands -/

section Runs
variable {i j : Instr} {st st' : Status} {f g : Regs p → Regs p}

/-- Two configuring commands in an unconfigured core change the registers one after the other. -/
theorem ConfigWrite.runAll_pair (hi : ConfigWrite i st f) (hj : ConfigWrite j st' g) {r : Regs p}
    (hc : r.cfgValid = false) (x : Option (Response p.owb)) (ins : List PortEvent) :
    runAll [i, j] ⟨p, r, x, ins⟩ = some ⟨p, g (f r), some ⟨st', 0⟩, ins⟩ := by
  rw [runAll_cons (hi.unlocked r x ins hc), runAll_cons (hj.unlocked _ _ ins ((hi.cfgValid r).trans hc)), runAll_nil]

/-- Two configuring commands in a configured core are both refused. -/
theorem ConfigWrite.runAll_pair_locked (hi : ConfigWrite i st f) (hj : ConfigWrite j st' g) {r : Regs p}
    (hc : r.cfgValid = true) (x : Option (Response p.owb)) (ins : List PortEvent) :
    runAll [i, j] ⟨p, r, x, ins⟩ = some ⟨p, r, some ⟨.errLocked, 0⟩, ins⟩ := by
  rw [runAll_cons (hi.locked r x ins hc), runAll_cons (hj.locked r _ ins hc), runAll_nil]

/-- A configuring command whose function is idempotent may be repeated. -/
theorem ConfigWrite.runAll_twice (hi : ConfigWrite i st f) (hf : ∀ r, f (f r) = f r) (r : Regs p)
    (x : Option (Response p.owb)) (ins : List PortEvent) :
    runAll [i, i] ⟨p, r, x, ins⟩ = runAll [i] ⟨p, r, x, ins⟩ := by
  cases hc : r.cfgValid with
  | false => rw [hi.runAll_pair hi hc, runAll_cons (hi.unlocked r x ins hc), runAll_nil, hf]
  | true => rw [hi.runAll_pair_locked hi hc, runAll_cons (hi.locked r x ins hc), runAll_nil]

/-- Configuring commands whose functions commute may come in either order. -/
theorem ConfigWrite.runAll_comm (hi : ConfigWrite i st f) (hj : ConfigWrite j st' g) (hfg : ∀ r, g (f r) = f (g r))
    (r : Regs p) (x : Option (Response p.owb)) (ins : List PortEvent) :
    (runAll [i, j] ⟨p, r, x, ins⟩).map State.hold = (runAll [j, i] ⟨p, r, x, ins⟩).map State.hold := by
  cases hc : r.cfgValid with
  | false => rw [hi.runAll_pair hj hc, hj.runAll_pair hi hc, hfg]; rfl
  | true => rw [hi.runAll_pair_locked hj hc, hj.runAll_pair_locked hi hc]

/-- A list of configuring commands in an unconfigured core changes the registers one after another. -/
theorem runAll_map_configWrite {α : Type} {cmd : α → Instr} {f : α → Regs p → Regs p} {xs : List α}
    (h : ∀ a ∈ xs, ConfigWrite (cmd a) .ok (f a)) {r : Regs p} (hc : r.cfgValid = false)
    (x : Option (Response p.owb)) (ins : List PortEvent) :
    ∃ resp, runAll (xs.map cmd) ⟨p, r, x, ins⟩ = some ⟨p, xs.foldl (fun r a => f a r) r, resp, ins⟩ := by
  induction xs generalizing r x with
  | nil => exact ⟨x, rfl⟩
  | cons a xs ih =>
    have ha := h a List.mem_cons_self
    rw [List.map_cons, runAll_cons (ha.unlocked r x ins hc)]
    exact ih (fun b hb => h b (List.mem_cons_of_mem a hb)) ((ha.cfgValid r).trans hc) _

end Runs

/-- Settles O27: both writes are functions that are idempotent, because a slice written twice keeps the second value. -/
theorem indexedWritesAreIdempotent : Obligations.IndexedWritesAreIdempotent := by
  rintro ⟨p, r, x, ins⟩ lane k din
  obtain ⟨_, g, hg, hctr⟩ := exists_configWrite_ctrWrite p lane k din
  obtain ⟨_, g', hg', hiv⟩ := exists_configWrite_ivWrite p lane k din
  exact ⟨hctr.runAll_twice (fun r => by rw [hg]) r x ins, hiv.runAll_twice (fun r => by rw [hg']) r x ins⟩

/-- Settles O28: the three write different registers, the key, the counters and the prev blocks. -/
theorem configurationWritesCommute : Obligations.ConfigurationWritesCommute := by
  rintro ⟨p, r, x, ins⟩ lane k lane' c d d' d''
  obtain ⟨_, g, -, hctr⟩ := exists_configWrite_ctrWrite p lane k d'
  obtain ⟨_, g', -, hiv⟩ := exists_configWrite_ivWrite p lane' c d''
  have hkey := configWrite_keyWrite (p := p) d
  refine ⟨hkey.runAll_comm hctr (fun r => ?keyCtr) r x ins, hkey.runAll_comm hiv (fun r => ?keyIv) r x ins,
    hctr.runAll_comm hiv (fun _ => rfl) r x ins⟩
  case keyCtr | keyIv => rw [appendKey_eq, appendKey_eq]

/-! ### LOAD_KEY (R81, R34) -/

/-- A run of KEY_WRITEs writes only the key and key_count. -/
theorem appendKeys_eq (ks : List Word) (r : Regs p) : ks.foldl appendKey r =
    { r with key := (ks.foldl appendKey r).key, keyCount := (ks.foldl appendKey r).keyCount } := by
  induction ks generalizing r with
  | nil => rfl
  | cons d ks ih => rw [List.foldl_cons, ih, appendKey_eq]

/-- A run of KEY_WRITEs counts its words up to KEYLEN+1. -/
theorem appendKeys_keyCount (ks : List Word) {r : Regs p} (h : r.keyCount ≤ p.keylen + 1) :
    (ks.foldl appendKey r).keyCount = min (r.keyCount + ks.length) (p.keylen + 1) := by
  induction ks generalizing r with
  | nil => simpa using h
  | cons d ks ih =>
    have hfirst : (appendKey r d).keyCount = min (r.keyCount + 1) (p.keylen + 1) := by rw [appendKey_eq]
    rw [List.foldl_cons, ih (by omega), hfirst, List.length_cons]
    omega

/-- A key word after a KEY_WRITE. -/
theorem appendKey_key (r : Regs p) (d : Word) {j : Nat} (hj : j < p.keylen) :
    (appendKey r d).key[j] = if r.keyCount = j then d else r.key[j] := by
  simp [appendKey_eq, Vector.getElem_setIfInBounds]

/-- A run of KEY_WRITEs stores its words in order from key_count on, as far as there is room. -/
theorem appendKeys_key (ks : List Word) (r : Regs p) {j : Nat} (hj : j < p.keylen) : (ks.foldl appendKey r).key[j] =
    if r.keyCount ≤ j then (ks[j - r.keyCount]?).getD r.key[j] else r.key[j] := by
  induction ks generalizing r with
  | nil => simp
  | cons d ks ih =>
    have hcount : (appendKey r d).keyCount = min (r.keyCount + 1) (p.keylen + 1) := by rw [appendKey_eq]
    rw [List.foldl_cons, ih, appendKey_key r d hj, hcount]
    obtain hlt | heq | hgt := Nat.lt_trichotomy r.keyCount j
    · have hnext : j - r.keyCount = j - (r.keyCount + 1) + 1 := by omega
      rw [Nat.min_eq_left (by omega), if_pos (by omega), if_neg hlt.ne, if_pos hlt.le, hnext, List.getElem?_cons_succ]
    · rw [if_neg (by omega), if_pos heq, if_pos heq.le, heq, Nat.sub_self]
      rfl
    · rw [if_neg (by omega), if_neg hgt.ne', if_neg (by omega)]

/-! ### CREATE (R173) -/

section Create
variable {s : State} (hc : s.regs.cfgValid = false) {mode l : Nat} {md : Mode}
include hc

/-- An unconfigured core refuses a lane count that it does not support. -/
theorem exec_create_lanes (hm : modeOf mode = some md) (hl : l = 0 ∨ l ∉ s.params.supportedL) (dflt str1 : Bool) :
    exec (.create mode dflt str1 l) s = .next (s.raise .errLanes) := by
  simp [exec, execCreate, whenUnlocked, hc, hm, hl]

/-- An unconfigured core refuses a key that is not KEYLEN words long. -/
theorem exec_create_keylen (hm : modeOf mode = some md) (h0 : l ≠ 0) (hl : l ∈ s.params.supportedL)
    (hk : s.regs.keyCount ≠ s.params.keylen) (dflt str1 : Bool) :
    exec (.create mode dflt str1 l) s = .next (s.raise .errKeylen) := by
  simp [exec, execCreate, whenUnlocked, hc, hm, h0, hl, hk]

/-- An unconfigured core answers every CREATE, with DOUT = 0 and not as locked (R173). -/
theorem exec_create_answers (dflt str1 : Bool) (mode l : Nat) : ∃ u st, exec (.create mode dflt str1 l) s = .next u ∧
    observe u = some (st, 0) ∧ st ≠ .errLocked := by
  cases hm : modeOf mode with
  | none => exact ⟨_, .errMode, exec_create_mode hc hm dflt str1 l, by simp [observe], by decide⟩
  | some md =>
    by_cases hl : l = 0 ∨ l ∉ s.params.supportedL
    case pos => exact ⟨_, .errLanes, exec_create_lanes hc hm hl dflt str1, by simp [observe], by decide⟩
    case neg =>
      obtain ⟨h0, hsup⟩ : l ≠ 0 ∧ l ∈ s.params.supportedL := by tauto
      by_cases hk : s.regs.keyCount = s.params.keylen
      case pos => exact ⟨_, .ok, exec_create hc hm h0 hsup hk, by simp [observe], by decide⟩
      case neg => exact ⟨_, .errKeylen, exec_create_keylen hc hm h0 hsup hk dflt str1, by simp [observe], by decide⟩

end Create

/-- With a known mode and a supported lane count CREATE finds the key length wrong, or nothing (R203). -/
theorem exec_create_errKeylen_iff {s u : State} {mode l : Nat} {md : Mode} {dflt str1 : Bool}
    (h : exec (.create mode dflt str1 l) s = .next u) (hc : s.regs.cfgValid = false) (hm : modeOf mode = some md)
    (h0 : l ≠ 0) (hl : l ∈ s.params.supportedL) :
    (observe u).map Prod.fst = some .errKeylen ↔ s.regs.keyCount ≠ s.params.keylen := by
  by_cases hk : s.regs.keyCount = s.params.keylen
  case pos => rw [exec_create hc hm h0 hl hk] at h; cases h; simp [observe, hk]
  case neg => rw [exec_create_keylen hc hm h0 hl hk] at h; cases h; simp [observe, hk]

/-- Settles O24: the KEY_WRITEs append one after another, and CREATE then looks at the count they leave. -/
theorem loadKeyCountsAndStoresTheWords : Obligations.LoadKeyCountsAndStoresTheWords := by
  rintro ⟨p, r, x, ins⟩ ks hc hcount
  obtain ⟨resp, hrun⟩ := runAll_map_configWrite (fun d (_ : d ∈ ks) => configWrite_keyWrite d) hc x ins
  rw [appendKeys_eq, appendKeys_keyCount ks hcount] at hrun
  refine ⟨(ks.foldl appendKey r).key, resp, hrun, fun j hj => appendKeys_key ks r hj, ?_⟩
  intro mode lanes dflt str1 t u hmode h0 hl ht hu
  cases hrun.symm.trans ht
  exact exec_create_errKeylen_iff hu hc (modeOf_lt hmode) h0 hl

/-- Settles O30: the checks pass, and the registers are those of `configure`. -/
theorem createConfiguresTheCore : Obligations.CreateConfiguresTheCore := by
  intro s mode l dflt str1 hp hc hmode hl hk
  have h0 : l ≠ 0 := Nat.pos_iff_ne_zero.1 (supported_bounds hp hl).1
  refine ⟨_, exec_create hc (modeOf_lt hmode) h0 hl hk, configure_cfgValid .., configure_mode .., ?lanes,
    configure_pos .., configure_exhausted hp _ dflt str1 hl s.regs, configure_prev .., configure_buf ..,
    configure_key .., configure_keyCount ..⟩
  case lanes => rw [configure_lanes, toNat_ofNat_lanes hp hl]

/-! ### LOAD_CTR and LOAD_IV (R81) -/

/-- The first `n` slices of `v` written one after another over `c` leave the bits of `v` below `len * n`. -/
theorem getLsbD_putSlices {m : Nat} (len n : Nat) (c v : BitVec m) {b : Nat} (hb : b < m) :
    ((List.range n).foldl (fun a k => putBits a (len * k) (getBits v (len * k) len)) c).getLsbD b =
      if b < len * n then v.getLsbD b else c.getLsbD b := by
  induction n with
  | zero => simp
  | succ n ih =>
    rw [List.range_succ, List.foldl_append, List.foldl_cons, List.foldl_nil, getLsbD_putBits, ih, decide_eq_true hb,
      Bool.true_and, Nat.mul_succ]
    by_cases hslice : len * n ≤ b ∧ b < len * n + len
    case pos =>
      rw [if_pos hslice, if_pos hslice.2, getLsbD_getBits, Nat.add_sub_cancel' hslice.1, decide_eq_true (by omega),
        Bool.true_and]
    case neg =>
      rw [if_neg hslice]
      by_cases hlow : b < len * n
      case pos => rw [if_pos hlow, if_pos (by omega)]
      case neg => rw [if_neg hlow, if_neg (by omega)]

/-- All slices of `v` written one after another leave `v`. -/
theorem putSlices_eq {m len n : Nat} (hm : len * n = m) (c v : BitVec m) :
    (List.range n).foldl (fun a k => putBits a (len * k) (getBits v (len * k) len)) c = v := by
  apply eq_of_getLsbD
  intro b hb
  rw [getLsbD_putSlices len n c v hb, if_pos (by omega)]

/-- A run of CTR_WRITEs to one lane writes the words of its counter one after another. -/
theorem writeCtrWords_eq (lane : Fin p.lmax) (x : Nat → BitVec p.cwb) (ks : List Nat) (r : Regs p) :
    ks.foldl (fun r k => writeCtrWord r lane k (x k)) r =
      { r with ctr := r.ctr.set lane (ks.foldl (fun c k => setCtrWord c k (x k)) r.ctr[lane]) } := by
  induction ks generalizing r with
  | nil => simp
  | cons k ks ih => rw [List.foldl_cons, ih]; simp [writeCtrWord]

/-- A run of IV_WRITEs to one lane writes the chunks of its prev block one after another. -/
theorem writePrevChunks_eq (lane : Fin p.lmax) (x : Nat → Word) (cs : List Nat) (r : Regs p) :
    cs.foldl (fun r c => writePrevChunk r lane c (x c)) r =
      { r with prev := r.prev.set lane (cs.foldl (fun b c => setChunk b c (x c)) r.prev[lane]) } := by
  induction cs generalizing r with
  | nil => simp
  | cons c cs ih => rw [List.foldl_cons, ih]; simp [writePrevChunk]

/-- A counter word is not cut off by the 32 bits of DIN (R8, R77). -/
theorem setWidth_din (hp : p.Wf) (x : BitVec p.cwb) : (x.setWidth 32).setWidth p.cwb = x := by
  obtain ⟨-, -, -, ⟨-, hcwb⟩, -⟩ := hp
  rw [BitVec.setWidth_setWidth_of_le _ hcwb, BitVec.setWidth_eq]

/-- Settles O29: the slices of the value are written one after another, and together they are the value. -/
theorem loadPseudoInstructionsSetTheWholeValue : Obligations.LoadPseudoInstructionsSetTheWholeValue := by
  rintro ⟨p, r, x, ins⟩ lane hl hp hc
  refine ⟨fun v => ?ctr, fun v => ?iv⟩
  case ctr =>
    obtain ⟨resp, hrun⟩ := runAll_map_configWrite (fun k (hk : k ∈ List.range p.w) =>
      configWrite_ctrWrite hl (List.mem_range.1 hk) ((ctrWord p.cwb v k).setWidth 32)) hc x ins
    have hvalue : (List.range p.w).foldl (fun c k => setCtrWord c k (ctrWord p.cwb v k)) r.ctr[lane] = v :=
      putSlices_eq rfl _ v
    simp only [setWidth_din hp] at hrun
    rw [writeCtrWords_eq ⟨lane, hl⟩ (ctrWord p.cwb v), Fin.getElem_fin, hvalue] at hrun
    exact ⟨resp, hrun⟩
  case iv =>
    obtain ⟨resp, hrun⟩ := runAll_map_configWrite (fun c (hk : c ∈ List.range p.chunks) =>
      configWrite_ivWrite hl (List.mem_range.1 hk) (getBits v (32 * c) 32)) hc x ins
    have hchunks : 32 * p.chunks = p.bw := by
      obtain ⟨-, -, -, -, -, hbw, -⟩ := hp
      exact Nat.mul_div_cancel' (Nat.dvd_of_mod_eq_zero hbw)
    have hvalue : (List.range p.chunks).foldl (fun b c => setChunk b c (getBits v (32 * c) 32)) r.prev[lane] = v :=
      putSlices_eq hchunks _ v
    rw [writePrevChunks_eq ⟨lane, hl⟩ fun c => getBits v (32 * c) 32, Fin.getElem_fin, hvalue] at hrun
    exact ⟨resp, hrun⟩

end Sys2Proof.Machine
end

section
/-! PROOF. The refill and NEXT_WORD as wholes (R120, R124). The slots of the active lanes lie below N, so no word from N
on is written; NEXT_WORD returns the word at the cursor of the registers its own refill, if any, leaves. -/

namespace Sys2Proof.Machine

variable {p : Params}

/-- A refill writes only the first N words of the buffer (R32, R120). -/
theorem refill_buf_of_ge (r : Regs p) {q : Nat} (hq : q < p.nmax) (hN : bufLen r ≤ q) :
    (refill r).buf[q] = r.buf[q] := by
  have hother : ∀ i ∈ activeLanes r, ∀ j, j < p.wpb → slot p r.lanes.toNat i.val j ≠ q := fun i hi _ hj =>
    ((slot_lt ((mem_activeLanes r i).1 hi) hj).trans_le hN).ne
  rw [← Option.some_inj, ← Vector.getElem?_eq_getElem hq, ← Vector.getElem?_eq_getElem hq, refill, refillIn_eq]
  exact storeLanes_buf_other (outBlock r) (activeLanes r) r q hother

/-- Settles O39: the slots of active lanes lie in the buffer, and the rest is what a refill leaves field by field. -/
theorem refillStoresEveryBlock : Obligations.RefillStoresEveryBlock := by
  intro p r hmax
  refine ⟨fun _ => rfl, fun i j hi hj => ?stored, fun q hq => refill_buf_of_ge r hq, refill_prev r, refill_ctr r,
    refill_pos r, refill_cfgValid r, refill_mode r, refill_lanes r, refill_stride r, refill_key r, refill_keyCount r⟩
  case stored => exact refill_buf_slot r hi hj ((slot_lt hi hj).trans_le (bufLen_le_nmax hmax))

/-- A buffer with words left is not refilled (R124). -/
theorem refillIfExhausted_of_lt {r : Regs p} (h : r.pos < bufLen r) : refillIfExhausted r = r :=
  if_neg h.ne

/-- Settles O41: the cursor names a word of the buffer, before which an exhausted buffer is refilled. -/
theorem nextWordReturnsTheWordAtTheCursor : Obligations.NextWordReturnsTheWordAtTheCursor := by
  intro s hs
  refine ⟨exec_nextWord_notcfg, fun hc hlt => ?left, fun hc heq => ?exhausted⟩
  case left =>
    have hq : s.regs.pos < s.params.nmax := hlt.trans_le (bufLen_le_nmax (hs.control.lanes_le hs.built hc))
    exact ⟨hq, exec_nextWord_at (refillIfExhausted_of_lt hlt) hc hq⟩
  case exhausted =>
    have hq : 0 < s.params.nmax :=
      (hs.control.bufLen_pos hs.built hc).trans_le (bufLen_le_nmax (hs.control.lanes_le hs.built hc))
    exact ⟨hq, exec_nextWord_at (refillIfExhausted_of_exhausted ⟨hc, heq⟩) hc hq⟩

end Sys2Proof.Machine
end

section
/-! PROOF. Steps and the whole invariant. A step is one of four, by the event it takes, and a command leaves the inputs
and the parameters. The invariant is kept part by part: the parameters stand, the control registers were shown above, a
command that leaves the key registers or the buffer has nothing to show of them, and every response that is an error is
raised with DOUT = 0. -/

namespace Sys2Proof.Machine

variable {p : Params}

/-! ### A step by the event it takes (R61, R170, R215, R230) -/

section Events
variable {s : State} {rest : List PortEvent}

theorem step_of_no_input (h : s.inputs = []) : step s = .next s.hold := by
  unfold step accept; rw [h]

theorem step_of_idle (h : s.inputs = .idle :: rest) : step s = .next { s with response := none, inputs := rest } := by
  unfold step accept; rw [h]

theorem step_of_command {c : Command} (h : s.inputs = .command c :: rest) :
    step s = execute c { s with inputs := rest } := by
  unfold step accept; rw [h]

theorem step_of_reset {outstanding : Option Command} (h : s.inputs = .reset outstanding :: rest) :
    step s = .next { s with regs := Regs.reset s.params, response := none, inputs := rest } := by
  unfold step accept; rw [h]

end Events

/-- Executing a word that decodes is executing its command. -/
theorem execute_instr {c : Command} {i : Instr} (h : decode c = .instr i) (s : State) : execute c s = exec i s := by
  unfold execute; rw [h]

/-- The command that a numbered word names is the one the decoder gives for its two words. -/
theorem decode_of_decodeTableWord {nbits w : Nat} {i : Instr} (h : decodeTableWord nbits w = some i) :
    decode (commandOfBits nbits w) = .instr i := by
  unfold decodeTableWord at h
  split at h <;> cases h
  assumption

/-- Settles O7: the step executes the word at the port, which decodes to the command or is illegal. -/
theorem stepRunsTheDecodedCommand : Obligations.StepRunsTheDecodedCommand := by
  intro s c rest hin
  refine ⟨fun i hd => ?command, fun why hd => ?illegal, fun nbits w i hd => ?fetched⟩
  case command => rw [step_of_command hin, execute_instr hd]
  case illegal => rw [step_of_command hin, execute_illegal hd]
  case fetched =>
    have hin' : (s.withFetchWord nbits w).inputs = .command (commandOfBits nbits w) :: s.inputs := rfl
    rw [step_of_command hin', execute_instr (decode_of_decodeTableWord hd)]
    rfl

/-- No word puts an input at the port or takes one (R66). -/
theorem execute_inputs {c : Command} {s t : State} (h : execute c s = .next t) : t.inputs = s.inputs := by
  obtain ⟨_, -, rfl⟩ | ⟨_, _, rfl⟩ := execute_raises_or_completes h
  · rfl
  · rfl

/-- A step takes the next event at the port and no other (R61). -/
theorem step_inputs {s t : State} (h : step s = .next t) : t.inputs = s.inputs.tail := by
  cases hin : s.inputs with
  | nil => rw [step_of_no_input hin] at h; cases h; exact hin
  | cons e rest =>
    cases e with
    | idle => rw [step_of_idle hin] at h; cases h; rfl
    | command c => rw [step_of_command hin] at h; exact execute_inputs h
    | reset outstanding => rw [step_of_reset hin] at h; cases h; rfl

/-- Settles O8: the inputs and the parameters after a step, and the two steps with no command. -/
theorem stepTakesOneEvent : Obligations.StepTakesOneEvent :=
  ⟨fun _ _ h => ⟨step_inputs h, step_params h⟩, fun _ => step_of_no_input, fun _ _ => step_of_idle⟩

/-- DESTROY is ResetState, completed with OK, in every state (R174). -/
theorem exec_destroy (s : State) : exec .destroy s = .next (s.complete (Regs.reset s.params) 0) := by rfl

/-- Settles O9: the step of a reset, DESTROY, and the reset value of each register. -/
theorem resetAndDestroyClearEverything : Obligations.ResetAndDestroyClearEverything :=
  ⟨fun _ _ _ => step_of_reset, exec_destroy, fun p =>
    ⟨Regs.reset_cfgValid p, Regs.reset_mode p, Regs.reset_lanes p, Regs.reset_stride p, Regs.reset_pos p,
      Regs.reset_keyCount p, fun i h => ⟨Regs.reset_ctr p i h, Regs.reset_prev p i h⟩, Regs.reset_buf p,
      Regs.reset_key p⟩⟩

/-- Settles O21: the reset state is unconfigured, and an unconfigured core accepts every configuration command. -/
theorem afterResetOnlyNextWordIsRefused : Obligations.AfterResetOnlyNextWordIsRefused := by
  intro p
  have hc : (State.resetOf p).regs.cfgValid = false := Regs.reset_cfgValid p
  exact ⟨hc, exec_nextWord_notcfg hc, fun din => ⟨_, exec_keyWrite hc din⟩,
    fun lane k din hl hk => ⟨_, exec_ctrWrite hc hl hk din⟩, fun lane c din hl hk => ⟨_, exec_ivWrite hc hl hk din⟩,
    fun mode dflt str1 lanes => exec_create_answers hc dflt str1 mode lanes⟩

/-! ### DOUT (R58) -/

/-- Settles O19: an error has DOUT = 0, and so has every command that completes, NEXT_WORD set aside. -/
theorem onlyNextWordReturnsData : Obligations.OnlyNextWordReturnsData := by
  intro i s t h hno
  obtain ⟨_, _, rfl⟩ | ⟨_, rfl⟩ | ⟨_, _, _, rfl⟩ | ⟨_, _, _, _, _, _, _, rfl⟩ | ⟨_, _, _, _, _, _, _, rfl⟩ |
    ⟨_, _, _, _, _, _, _, _, _, _, _, rfl⟩ | ⟨_, hi, hc, _⟩ | ⟨_, rfl⟩ := exec_cases i s t h
  case inr.inr.inr.inr.inr.inr.inl => simp [hi, hc] at hno
  all_goals simp [observe]

/-! ### cfg_valid (R25) -/

/-- Only a CREATE that returns OK configures an unconfigured core. -/
theorem exec_configures {i : Instr} {s t : State} (h : exec i s = .next t) (hs : s.regs.cfgValid = false)
    (ht : t.regs.cfgValid = true) :
    ∃ mode dflt str1 lanes, i = .create mode dflt str1 lanes ∧ observe t = some (.ok, 0) := by
  have hkept : t.regs.cfgValid ≠ s.regs.cfgValid := by simp [hs, ht]
  obtain ⟨_, _, rfl⟩ | ⟨_, rfl⟩ | ⟨din, _, _, rfl⟩ | ⟨_, _, _, _, _, _, _, rfl⟩ | ⟨_, _, _, _, _, _, _, rfl⟩ |
    ⟨_, _, _, _, _, hi, _, _, _, _, _, rfl⟩ | ⟨_, _, hc, _⟩ | ⟨_, rfl⟩ := exec_cases i s t h
  · exact absurd rfl hkept
  · exact absurd rfl hkept
  · exact absurd (appendKey_cfgValid s.regs din) hkept
  · exact absurd rfl hkept
  · exact absurd rfl hkept
  · exact ⟨_, _, _, _, hi, by simp [observe]⟩
  · simp [hs] at hc
  · cases ht

/-- Only DESTROY unconfigures a configured core. -/
theorem exec_unconfigures {i : Instr} {s t : State} (h : exec i s = .next t) (hs : s.regs.cfgValid = true)
    (ht : t.regs.cfgValid = false) : i = .destroy := by
  have hkept : t.regs.cfgValid ≠ s.regs.cfgValid := by simp [hs, ht]
  obtain ⟨_, _, rfl⟩ | ⟨_, rfl⟩ | ⟨din, _, _, rfl⟩ | ⟨_, _, _, _, _, _, _, rfl⟩ | ⟨_, _, _, _, _, _, _, rfl⟩ |
    ⟨_, _, _, _, _, _, _, _, _, _, _, rfl⟩ | ⟨_, _, _, rfl⟩ | ⟨hi, _⟩ := exec_cases i s t h
  · exact absurd rfl hkept
  · exact absurd rfl hkept
  · exact absurd (appendKey_cfgValid s.regs din) hkept
  · exact absurd rfl hkept
  · exact absurd rfl hkept
  · cases ht
  · exact absurd (refillIfExhausted_cfgValid s.regs) hkept
  · exact hi

/-- A step that goes on and changes cfg_valid is a reset, or executes a command that changes it. -/
theorem step_changes_cfgValid {s t : State} (h : step s = .next t) (hne : t.regs.cfgValid ≠ s.regs.cfgValid) :
    (∃ outstanding rest, s.inputs = .reset outstanding :: rest ∧ t.regs.cfgValid = false) ∨
    ∃ c rest i, s.inputs = .command c :: rest ∧ decode c = .instr i ∧ exec i { s with inputs := rest } = .next t := by
  cases hin : s.inputs with
  | nil => rw [step_of_no_input hin] at h; cases h; exact absurd rfl hne
  | cons e rest =>
    cases e with
    | idle => rw [step_of_idle hin] at h; cases h; exact absurd rfl hne
    | reset outstanding => rw [step_of_reset hin] at h; cases h; exact .inl ⟨_, _, rfl, rfl⟩
    | command c =>
      rw [step_of_command hin] at h
      cases hd : decode c with
      | illegal why => rw [execute_illegal hd] at h; cases h; exact absurd rfl hne
      | instr i => rw [execute_instr hd] at h; exact .inr ⟨c, rest, i, rfl, hd, h⟩

/-- Settles O14: of the events a reset can only clear cfg_valid, and of the commands CREATE sets and DESTROY clears it. -/
theorem onlyCreateConfigures : Obligations.OnlyCreateConfigures := by
  intro s t h
  refine ⟨fun hs ht => ?set, fun hs ht => ?cleared⟩
  case set =>
    obtain ⟨_, _, _, hf⟩ | ⟨c, rest, i, hin, hd, hexec⟩ := step_changes_cfgValid h (by simp [hs, ht])
    · simp [ht] at hf
    · obtain ⟨mode, dflt, str1, lanes, rfl, hobs⟩ := exec_configures (s := { s with inputs := rest }) hexec hs ht
      exact ⟨c, rest, mode, dflt, str1, lanes, hin, hd, hobs⟩
  case cleared =>
    obtain ⟨outstanding, rest, hin, _⟩ | ⟨c, rest, i, hin, hd, hexec⟩ := step_changes_cfgValid h (by simp [hs, ht])
    · exact .inr ⟨outstanding, rest, hin⟩
    · obtain rfl := exec_unconfigures (s := { s with inputs := rest }) hexec hs ht
      exact .inl ⟨c, rest, hin, hd⟩

/-! ### The key registers and the buffer keep their invariants (R32 to R34) -/

/-- cfg_valid and the key registers alone decide the invariant of the key. -/
theorem Regs.KeyInv.of_key_eq {a b : Regs p} (ha : a.KeyInv) (hc : b.cfgValid = a.cfgValid) (hk : b.key = a.key)
    (hn : b.keyCount = a.keyCount) : b.KeyInv := by
  unfold Regs.KeyInv; rw [hc, hk, hn]; exact ha

theorem Regs.reset_keyInv : (Regs.reset p).KeyInv :=
  ⟨Nat.zero_le _, nofun, fun j hj _ => Regs.reset_key p j hj⟩

/-- KEY_WRITE in an unconfigured core keeps the invariant of the key (R171). -/
theorem appendKey_keyInv {r : Regs p} (h : r.KeyInv) (hc : r.cfgValid = false) (d : Word) : (appendKey r d).KeyInv := by
  obtain ⟨-, -, hzero⟩ := h
  have hcount : (appendKey r d).keyCount = min (r.keyCount + 1) (p.keylen + 1) := by rw [appendKey_eq]
  refine ⟨hcount ▸ Nat.min_le_right _ _, by simp [hc], fun j hj hle => ?_⟩
  rw [appendKey_key r d hj, if_neg (by omega)]
  exact hzero j hj (by omega)

/-- A CREATE that has found the key as long as it must be keeps the invariant of the key (R173). -/
theorem configure_keyInv {r : Regs p} (h : r.KeyInv) (hk : r.keyCount = p.keylen) (md : Mode) (dflt str1 : Bool)
    (l : Nat) : (configure md dflt str1 l r).KeyInv := by
  obtain ⟨hle, -, hzero⟩ := h
  exact ⟨by rwa [configure_keyCount], fun _ => by rwa [configure_keyCount], by simpa using hzero⟩

/-- The lane count and the buffer alone decide the invariant of the buffer. -/
theorem Regs.BufferInv.of_buf_eq {a b : Regs p} (ha : a.BufferInv) (hl : b.lanes = a.lanes) (hb : b.buf = a.buf) :
    b.BufferInv := by
  unfold Regs.BufferInv bufLen; rw [hl, hb]; exact ha

theorem Regs.reset_bufferInv : (Regs.reset p).BufferInv := fun j hj _ => Regs.reset_buf p j hj

/-- Before a CREATE every word is unfilled, because N is 0 (R29, R32). -/
theorem configure_bufferInv {r : Regs p} (h : r.BufferInv) (hcontrol : r.ControlInv) (hc : r.cfgValid = false)
    (md : Mode) (dflt str1 : Bool) (l : Nat) : (configure md dflt str1 l r).BufferInv := by
  obtain ⟨-, hlanes, -⟩ := hcontrol.1 hc
  intro j hj _
  have hunfilled : bufLen r ≤ j := by simp [bufLen, hlanes]
  simpa using h j hj hunfilled

/-- NEXT_WORD's own refill leaves the words from N on (R120, R124). -/
theorem refillIfExhausted_bufferInv {r : Regs p} (h : r.BufferInv) : (refillIfExhausted r).BufferInv := by
  unfold refillIfExhausted
  split
  case isFalse => exact h
  case isTrue =>
    intro j hj hN
    rw [bufLen, refill_lanes] at hN
    rw [refill_buf_of_ge r hj hN]
    exact h j hj hN

/-! ### The whole invariant -/

theorem State.responseInv_raise (s : State) (st : Status) : (s.raise st).ResponseInv := by
  rintro _ ⟨⟩ _; rfl

theorem State.responseInv_complete (s : State) (r : Regs s.params) (d : BitVec s.params.owb) :
    (s.complete r d).ResponseInv := by
  rintro _ ⟨⟩ hne; exact absurd rfl hne

/-- The invariant of a command that completes: its registers must keep their three parts. -/
theorem State.Inv.complete {s : State} (hs : s.Inv) {r : Regs s.params} (hcontrol : r.ControlInv) (hkey : r.KeyInv)
    (hbuf : r.BufferInv) (d : BitVec s.params.owb) : (s.complete r d).Inv :=
  ⟨hs.built, hcontrol, hkey, hbuf, s.responseInv_complete r d⟩

/-- The invariant does not speak of the inputs. -/
theorem State.Inv.with_inputs {s : State} (hs : s.Inv) (ins : List PortEvent) : State.Inv { s with inputs := ins } :=
  ⟨hs.built, hs.control, hs.key, hs.buffer, hs.response⟩

/-- Every command that goes on keeps the invariant. -/
theorem exec_keeps_inv {i : Instr} {s t : State} (hs : s.Inv) (h : exec i s = .next t) : t.Inv := by
  have hcontrol : t.regs.ControlInv := exec_keeps_controlInv hs.built hs.control h
  obtain ⟨st, _, rfl⟩ | ⟨_, rfl⟩ | ⟨din, _, hc, rfl⟩ | ⟨lane, k, din, _, _, _, _, rfl⟩ |
    ⟨lane, c, din, _, _, _, _, rfl⟩ | ⟨_, dflt, str1, l, md, _, _, _, _, hk, hc, rfl⟩ | ⟨_, _, _, rfl⟩ |
    ⟨_, rfl⟩ := exec_cases i s t h
  · exact ⟨hs.built, hcontrol, hs.key, hs.buffer, s.responseInv_raise st⟩
  · exact hs.complete hcontrol hs.key hs.buffer _
  · exact hs.complete hcontrol (appendKey_keyInv hs.key hc din) (hs.buffer.of_buf_eq (by simp) (by simp)) _
  · exact hs.complete hcontrol (hs.key.of_key_eq rfl rfl rfl) (hs.buffer.of_buf_eq rfl rfl) _
  · exact hs.complete hcontrol (hs.key.of_key_eq rfl rfl rfl) (hs.buffer.of_buf_eq rfl rfl) _
  · exact hs.complete hcontrol (configure_keyInv hs.key hk md dflt str1 l)
      (configure_bufferInv hs.buffer hs.control hc md dflt str1 l) _
  · exact hs.complete hcontrol (hs.key.of_key_eq (by simp) (by simp) (by simp))
      ((refillIfExhausted_bufferInv hs.buffer).of_buf_eq rfl rfl) _
  · exact hs.complete hcontrol Regs.reset_keyInv Regs.reset_bufferInv _

/-- Settles O12: a step changes at most the response, resets every register, or is a command that keeps the invariant. -/
theorem stepKeepsTheInvariant : Obligations.StepKeepsTheInvariant := by
  intro s t hs h
  obtain ⟨x, ins, rfl, hx⟩ | ⟨ins, rfl⟩ | ⟨_, rest, i, _, _, hexec⟩ := step_cases s t h
  case inl =>
    refine ⟨hs.built, hs.control, hs.key, hs.buffer, ?_⟩
    intro r hr _
    have hraised : r.status ≠ .ok ∧ r.dout = 0 := by simpa using (Option.all_eq_true _ x).1 hx r hr
    exact hraised.2
  case inr.inl => exact ⟨hs.built, Regs.reset_controlInv, Regs.reset_keyInv, Regs.reset_bufferInv, nofun⟩
  case inr.inr => exact exec_keeps_inv (hs.with_inputs rest) hexec

/-- The reset state of every KSC that can be built meets the invariant. -/
theorem State.resetOf_inv (hp : p.Wf) : (State.resetOf p).Inv :=
  ⟨hp, Regs.reset_controlInv, Regs.reset_keyInv, Regs.reset_bufferInv, nofun⟩

/-- Settles O10: `State.reset` is the reset state of parameters in range. -/
theorem resetMeetsTheInvariant : Obligations.ResetMeetsTheInvariant :=
  ⟨State.resetOf_inv (by decide), fun _ => State.resetOf_inv⟩

/-- Settles O43: the invariant holds at reset and every step keeps it. -/
theorem reachableStatesMeetTheInvariant : Obligations.ReachableStatesMeetTheInvariant := by
  intro p s hp h
  refine ⟨?_, (h.controlInv hp).1⟩
  induction h with
  | reset => exact State.resetOf_inv hp
  | @step s t inputs _ next ih => exact stepKeepsTheInvariant _ t (ih.with_inputs inputs) next

/-! ### No step stops (R170, R202) -/

/-- The check of cfg_valid in front of a command that goes on goes on itself. -/
theorem exists_whenUnlocked {s : State} {o : Host.Outcome State Fault Refusal} (h : ∃ t, o = .next t) :
    ∃ t, whenUnlocked s o = .next t := by
  unfold whenUnlocked
  split
  case isTrue => exact ⟨_, rfl⟩
  case isFalse => exact h

/-- Every command goes on in a state that meets the invariant. -/
theorem exists_exec {s : State} (hs : s.Inv) (i : Instr) : ∃ t, exec i s = .next t := by
  cases i with
  | nop | destroy => exact ⟨_, rfl⟩
  | keyWrite din => exact exists_whenUnlocked ⟨_, rfl⟩
  | ctrWrite | ivWrite =>
    refine exists_whenUnlocked ?_
    split
    case isTrue => exact ⟨_, rfl⟩
    case isFalse => exact ⟨_, rfl⟩
  | create mode dflt str1 lanes =>
    cases hc : s.regs.cfgValid with
    | false =>
      obtain ⟨u, _, h, _⟩ := exec_create_answers hc dflt str1 mode lanes
      exact ⟨u, h⟩
    | true => exact ⟨_, exec_create_locked hc mode dflt str1 lanes⟩
  | nextWord =>
    cases hc : s.regs.cfgValid with
    | false => exact ⟨_, exec_nextWord_notcfg hc⟩
    | true => exact ⟨_, exec_nextWord_of_lt hc (hs.control.refillIfExhausted_pos_lt_nmax hs.built hc)⟩

/-- Settles O13: every event leaves a state, an illegal word completes, and every command goes on. -/
theorem stepNeverStops : Obligations.StepNeverStops := by
  intro s hs
  cases hin : s.inputs with
  | nil => exact ⟨_, step_of_no_input hin⟩
  | cons e rest =>
    cases e with
    | idle => exact ⟨_, step_of_idle hin⟩
    | reset outstanding => exact ⟨_, step_of_reset hin⟩
    | command c =>
      rw [step_of_command hin]
      cases hd : decode c with
      | illegal why => exact ⟨_, execute_illegal hd _⟩
      | instr i => rw [execute_instr hd]; exact exists_exec (hs.with_inputs rest) i

end Sys2Proof.Machine
end
